-- ==== Sys2Proof/Word.lean ====
section
/-! DEFINITION. The words the HAU deals in: bytes, symbols and command words. -/

namespace Sys2Proof

/-- A byte, a number in [0, 256) (R11). -/
abbrev Byte := BitVec 8

/-- A list of bytes, the one pushed first at position 0 (R11, R67). A symbol proper is non-empty; `BUF`, `SOP` and
`ERRSYM` are also held in this type. -/
abbrev Symbol := List Byte

/-- A command word: one length, 32 bits (R90). -/
abbrev CommandWord := BitVec 32

/-- The operand of format I (R93), and the width of `BASE` and `SCALE` (R27). -/
abbrev Imm24 := BitVec 24

end Sys2Proof
end

