-- ==== Sys2Proof/Syntax.lean ====
section
/-! DEFINITION. The commands, one constructor per row of spec/opcode_table.json (R94). -/

namespace Sys2Proof

/-- A command of the HAU with its operands as the word carries them: `imm8`, `f` and `imm24` are contiguous fields
used as unsigned numbers (R102). -/
inductive Instr where
  /-- `NOP` (R224). -/
  | nop
  /-- `RESET` (R225). -/
  | reset
  /-- `RD r` (R226). -/
  | rd (r : Byte)
  /-- `SETW w` (R121). -/
  | setw (w : Byte)
  /-- `SETB b` (R160). -/
  | setb (b : Imm24)
  /-- `SETK k` (R161). -/
  | setk (k : Imm24)
  /-- `CBEGIN` (R141). -/
  | cbegin
  /-- `EBEGIN` (R201). -/
  | ebegin
  /-- `PUSH b` (R123). -/
  | push (b : Byte)
  /-- `END` (R125). -/
  | endStream
  /-- `SRCERR` (R127). -/
  | srcerr
  /-- `SYMB first, b` (R143). -/
  | symb (first : Bool) (b : Byte)
  /-- `RDCNT` (R144). -/
  | rdcnt
  /-- `RDOCC` (R205). -/
  | rdocc
deriving DecidableEq, Repr

end Sys2Proof
end

