-- ==== Sys2Proof/WellFormed.lean ====
section
/-! DEFINITION. Which command words are well formed (R97). Every term of `Instr` is a command, because its operands
have the widths of their fields; what can be ill formed is a WORD, and R97 names the checks. They are written here
from the format tables R91 to R93, not from the mask and match table that the decoder uses. -/

namespace Sys2Proof

/-- The three command formats (R91, R92, R93). -/
inductive CommandFormat where
  /-- Format Z: no operand, bits [23:0] zero. -/
  | z
  /-- Format B: one byte operand, bits [23:9] zero; bit 8 zero unless `flag`. -/
  | b (flag : Bool)
  /-- Format I: one 24-bit operand, nothing must be zero. -/
  | i
deriving DecidableEq, Repr

/-- The format of an opcode (R94); `none` for the 242 reserved opcodes. -/
def commandFormat (op : Nat) : Option CommandFormat :=
  match op with
  | 0x00 => some .z
  | 0x01 => some .z
  | 0x02 => some (.b false)
  | 0x10 => some (.b false)
  | 0x11 => some .i
  | 0x12 => some .i
  | 0x20 => some .z
  | 0x21 => some .z
  | 0x22 => some (.b false)
  | 0x23 => some .z
  | 0x24 => some .z
  | 0x30 => some (.b true)
  | 0x31 => some .z
  | 0x32 => some .z
  | _ => none

/-- A word is well formed when its opcode is defined and the must-be-zero bits of its format are 0 (R97). -/
def CommandWord.wellFormed (w : CommandWord) : Bool :=
  match commandFormat (w.extractLsb' 24 8).toNat with
  | none => false
  | some .z => w.extractLsb' 0 24 == 0
  | some (.b flag) => w.extractLsb' 9 15 == 0 && (flag || w.extractLsb' 8 1 == 0)
  | some .i => true

end Sys2Proof
end

