-- ==== Sys2Proof/Decode.lean ====
section
/-! DEFINITION. From command words to commands by mask and match (R94, R98 step 1), and back (R91 to R94). A command
is one 32-bit word on the command port; there is no byte order to decide (R67, R90). -/

namespace Sys2Proof

/-- `imm8`, bits [7:0] (R92). -/
def CommandWord.imm8 (w : CommandWord) : Byte := w.extractLsb' 0 8

/-- `imm24`, bits [23:0] (R93). -/
def CommandWord.imm24 (w : CommandWord) : Imm24 := w.extractLsb' 0 24

/-- `f`, bit 8 (R92). -/
def CommandWord.flag (w : CommandWord) : Bool := w.getLsbD 8

/-- One row of spec/opcode_table.json: a word is the row's when `word AND mask = pattern` (R98). -/
structure OpcodeRow where
  mnemonic : String
  pattern : CommandWord
  mask : CommandWord
  /-- The command the row stands for, its operands taken from the word. -/
  command : CommandWord → Instr

/-- The word is one of the row's (R98 step 1). -/
def OpcodeRow.matchesWord (r : OpcodeRow) (w : CommandWord) : Bool := w &&& r.mask == r.pattern

/-- spec/opcode_table.json, row by row (R94). -/
def opcodeTable : List OpcodeRow :=
  [ ⟨"NOP",    0x00000000, 0xFFFFFFFF, fun _ => .nop⟩,
    ⟨"RESET",  0x01000000, 0xFFFFFFFF, fun _ => .reset⟩,
    ⟨"RD",     0x02000000, 0xFFFFFF00, fun w => .rd w.imm8⟩,
    ⟨"SETW",   0x10000000, 0xFFFFFF00, fun w => .setw w.imm8⟩,
    ⟨"SETB",   0x11000000, 0xFF000000, fun w => .setb w.imm24⟩,
    ⟨"SETK",   0x12000000, 0xFF000000, fun w => .setk w.imm24⟩,
    ⟨"CBEGIN", 0x20000000, 0xFFFFFFFF, fun _ => .cbegin⟩,
    ⟨"EBEGIN", 0x21000000, 0xFFFFFFFF, fun _ => .ebegin⟩,
    ⟨"PUSH",   0x22000000, 0xFFFFFF00, fun w => .push w.imm8⟩,
    ⟨"END",    0x23000000, 0xFFFFFFFF, fun _ => .endStream⟩,
    ⟨"SRCERR", 0x24000000, 0xFFFFFFFF, fun _ => .srcerr⟩,
    ⟨"SYMB",   0x30000000, 0xFFFFFE00, fun w => .symb w.flag w.imm8⟩,
    ⟨"RDCNT",  0x31000000, 0xFFFFFFFF, fun _ => .rdcnt⟩,
    ⟨"RDOCC",  0x32000000, 0xFFFFFFFF, fun _ => .rdocc⟩ ]

/-- The command of a word, `none` where no row matches (R97, R98 step 1). It reads the word alone (R90). -/
def decode (w : CommandWord) : Option Instr :=
  (opcodeTable.find? (fun r => r.matchesWord w)).map (fun r => r.command w)

/-- A word of format Z (R91). -/
def wordZ (op : Byte) : CommandWord := op ++ (0 : BitVec 24)

/-- A word of format B (R92). -/
def wordB (op : Byte) (f : Bool) (imm8 : Byte) : CommandWord := op ++ (0 : BitVec 15) ++ BitVec.ofBool f ++ imm8

/-- A word of format I (R93). -/
def wordI (op : Byte) (imm24 : Imm24) : CommandWord := op ++ imm24

/-- The word of a command (R94). -/
def encode : Instr → CommandWord
  | .nop => wordZ 0x00
  | .reset => wordZ 0x01
  | .rd r => wordB 0x02 false r
  | .setw w => wordB 0x10 false w
  | .setb b => wordI 0x11 b
  | .setk k => wordI 0x12 k
  | .cbegin => wordZ 0x20
  | .ebegin => wordZ 0x21
  | .push b => wordB 0x22 false b
  | .endStream => wordZ 0x23
  | .srcerr => wordZ 0x24
  | .symb first b => wordB 0x30 first b
  | .rdcnt => wordZ 0x31
  | .rdocc => wordZ 0x32

/-- A command word given as a number whose bits above `nbits` are 0, numbered as spec/opcode_table.json numbers
them: bit 0 the least significant (R10). -/
def tableWord (nbits w : Nat) : CommandWord := BitVec.ofNat 32 (w % 2 ^ nbits)

/-- What the decoder reads from a word of the opcode table. -/
def decodeTableWord (nbits w : Nat) : Option Instr := decode (tableWord nbits w)

end Sys2Proof
end

