-- ==== Sys2Proof/Config.lean ====
section
/-! DEFINITION. What is fixed for one HAU: the build parameters of R8, and the one free value of the spec (U6). -/

namespace Sys2Proof

/-- The build parameters a model takes as arguments (R8, R21, U7). -/
structure Build where
  /-- `WMAX`, the largest symbol width in bytes. -/
  wmax : Nat
  /-- `CW`, the width in bits of every counter. -/
  cw : Nat
  /-- `SW`, the width in bits of `X` and `TSIZE`. -/
  sw : Nat
deriving DecidableEq, Repr

/-- The default parameters of R8. -/
def Build.default : Build := { wmax := 2, cw := 32, sw := 64 }

/-- The constraints R8 puts on the parameters. -/
abbrev Build.Legal (b : Build) : Prop := 1 ≤ b.wmax ∧ b.wmax ≤ 255 ∧ 1 ≤ b.cw ∧ 1 ≤ b.sw

/-- FREE VALUE (R284, U6): whether a response the host has not taken when `rst` comes is still seen. "the response
may or may not appear": nothing is known of it. Its argument is the counter `draws` of the state, so that two
resets may differ (log 7). -/
opaque Config.pendingResponseSurvivesRst : Nat → Bool

end Sys2Proof
end

