-- ==== Sys2Proof/Machine/State.lean ====
section
/-! DEFINITION. The state of the HAU (R20, R25 to R36) and of its ports, as plain data, and its reset value (R283). -/

namespace Sys2Proof.Machine

/-- `PHASE` (R25). The codes 6 and 7 never occur and have no constructor (U10). -/
inductive Phase where
  /-- IDLE = 0: after reset, no pass run yet. -/
  | idle
  /-- COUNT = 1: a count pass is open. -/
  | count
  /-- COUNTED = 2: the count pass ended normally. -/
  | counted
  /-- ENCODE = 3: an encode pass is open. -/
  | encode
  /-- ENCODED = 4: the encode pass ended normally. -/
  | encoded
  /-- FAULT = 5: a fatal error was raised. -/
  | fault
deriving DecidableEq, Repr

/-- The fault kinds of R241. They are recorded in the state (R245): not one of them stops the model. -/
inductive FaultKind where
  /-- 1: the host reports that the byte source failed (R242). -/
  | sourceReadError
  /-- 2: of the host's builder, never raised by the HAU (R247). -/
  | degenerateDistribution
  /-- 3: of the host's builder, never raised by the HAU (R247). -/
  | tableExhausted
  /-- 4: the table has no entry at the key (R243). -/
  | unknownSymbolOccurrence
  /-- 5: a full counter would be incremented (R244). -/
  | counterOverflow
  /-- 6: the table's entry lies outside the working interval (R246). -/
  | tableRange
deriving DecidableEq, Repr

/-- The status of a response (R96). The codes 6 to 255 are never produced and have no constructor (U10). -/
inductive Status where
  /-- 0: done, no symbol completed. -/
  | ok
  /-- 1: done, this `PUSH` or `END` completed one symbol. -/
  | sym
  /-- 2: the command is not legal in the current phase. -/
  | refusedPhase
  /-- 3: an operand value is illegal, or a configuration would not fit. -/
  | refusedArg
  /-- 4: the word is not a defined command. -/
  | illegal
  /-- 5: this command raised a fault. -/
  | fault
deriving DecidableEq, Repr

/-- A response: status and data (R95). The data is held as the number it is (log 6). -/
structure Response where
  status : Status
  data : Nat
deriving DecidableEq, Repr

/-- A counter array (R29, R33, R61, R62): the cells that are not 0, sorted by symbol; an unlisted symbol reads 0
(log 9). -/
abbrev Counters := List (Symbol × Nat)

/-- One entry of the Spread Table: the slot at key `(sym, idx)` (R63). -/
structure TableEntry where
  sym : Symbol
  idx : Nat
  slot : Nat
deriving DecidableEq, Repr

/-- The Spread Table (R63, R170): a partial function with finite domain, its entries sorted by key. -/
abbrev Table := List TableEntry

/-- What the host does at the HAU's ports (R280, R290, R173, D2), in the order it does it (log 1). -/
inductive PortEvent where
  /-- It presents a command word on the command port. -/
  | command (w : CommandWord)
  /-- It takes the response from the response port. -/
  | takeResponse
  /-- It puts a table in place, given by its entries. -/
  | installTable (entries : List TableEntry)
  /-- The reset input `rst` is asserted. -/
  | rst
deriving DecidableEq, Repr

/-- No event of the HAU stops the machine: a fault of the spec is a next state in phase FAULT (R245), a refusal of the
spec is a response (R248), and the HAU otherwise waits for the next command for ever (R129). So there is no
constructor, and no step answers with a fault: nothing safe or unsafe hangs on it (log 4). -/
inductive Fault : Type
deriving DecidableEq, Repr

/-- Why the model gives a run no meaning. -/
inductive Refusal where
  /-- Raised by `exec` for a command without a meaning; safe. No arm raises it. -/
  | notModelled (mnemonic : String)
  /-- Raised by the step (not by a command's meaning) when the host presents a command before it has taken the
  previous response (R290, U16 "refuse"); safe: the run stops. -/
  | responseNotTaken
  /-- Raised by the step (not by a command's meaning) when the host installs a table during an encode pass
  (R80, U15 "refuse"); safe: the run stops. -/
  | tableChangedInPass
deriving DecidableEq, Repr

/-- The state of the HAU (R20), followed by what R21 calls parameters of a step and by its ports (D2). -/
structure State where
  /-- WMAX, CW, SW: parameters, changed by no step (R8, R21; log 5). -/
  build : Build
  /-- `PHASE` (R25). -/
  phase : Phase
  /-- `W`, 8 bits (R26). -/
  w : BitVec 8
  /-- `BASE`, 24 bits (R27). -/
  base : BitVec 24
  /-- `SCALE`, 24 bits (R27). -/
  scale : BitVec 24
  /-- `BUF`, the chunk buffer (R28). -/
  buf : Symbol
  /-- `CNT`, the counter array (R29). -/
  cnt : Counters
  /-- `NTOT`, CW bits (R30; log 6). -/
  ntot : Nat
  /-- `TSIZE`, SW bits (R31; log 6). -/
  tsize : Nat
  /-- `X`, SW bits (R32; log 6). -/
  x : Nat
  /-- `OCC`, the occurrence array (R33). -/
  occ : Counters
  /-- `SOP`, the query operand (R34). -/
  sop : Symbol
  /-- `ERRCODE` (R35): no fault, or its kind (log 8). -/
  errCode : Option FaultKind
  /-- `ERRSYM` (R36). -/
  errSym : Symbol
  /-- `ERRIDX`, CW bits (R36; log 6). -/
  errIdx : Nat
  /-- The table the host has in place: not HAU state (R9, R21; log 3). -/
  tbl : Table
  /-- What the host does next at the ports, oldest first (R24, R75; log 1). -/
  inputs : List PortEvent
  /-- The response port: the response not yet taken (R95, R290; log 2). -/
  resp : Option Response
  /-- The model's own counter of free values drawn (log 7). -/
  draws : Nat
deriving DecidableEq, Repr

/-- The reset state of a HAU with build parameters `b` (R283), its ports empty and no table in place. -/
def State.resetFor (b : Build) : State where
  build := b
  phase := .idle
  w := 1
  base := 256
  scale := 8
  buf := []
  cnt := []
  ntot := 0
  tsize := 0
  x := 0
  occ := []
  sop := []
  errCode := none
  errSym := []
  errIdx := 0
  tbl := []
  inputs := []
  resp := none
  draws := 0

/-- The machine right after reset (R283), built with the default parameters of R8. -/
def State.reset : State := State.resetFor Build.default

end Sys2Proof.Machine
end

