-- ==== Sys2Proof/Machine/Flags.lean ====
section
/-! DEFINITION. The outcome of a command. The HAU has no flag register (R45): what a command reports is the status and
the data of its response (R95, R96), and the code of a fault (R241). -/

namespace Sys2Proof.Machine

/-- `PHASE` as a number (R25). -/
def Phase.code : Phase → Nat
  | .idle => 0
  | .count => 1
  | .counted => 2
  | .encode => 3
  | .encoded => 4
  | .fault => 5

/-- The status as a number (R96). -/
def Status.code : Status → Nat
  | .ok => 0
  | .sym => 1
  | .refusedPhase => 2
  | .refusedArg => 3
  | .illegal => 4
  | .fault => 5

/-- The fault code (R241). -/
def FaultKind.code : FaultKind → Nat
  | .sourceReadError => 1
  | .degenerateDistribution => 2
  | .tableExhausted => 3
  | .unknownSymbolOccurrence => 4
  | .counterOverflow => 5
  | .tableRange => 6

/-- `ERRCODE` as a number, 0 for no fault (R35, R241). -/
def errCodeNumber : Option FaultKind → Nat
  | none => 0
  | some f => f.code

/-- `DW`, the width of the response data (R8). -/
def dataWidth (b : Build) : Nat := max (max b.cw b.sw) (max (8 * b.wmax + 8) 24)

/-- The response word of `8 + DW` bits: the status in bits [DW+7:DW], the data in bits [DW-1:0] (R95). -/
def Response.word (b : Build) (r : Response) : BitVec (8 + dataWidth b) :=
  BitVec.ofNat 8 r.status.code ++ BitVec.ofNat (dataWidth b) r.data

/-- The statuses of a command the HAU did not execute (R18, R248). -/
def Status.isRefusal : Status → Bool
  | .refusedPhase => true
  | .refusedArg => true
  | .illegal => true
  | .ok => false
  | .sym => false
  | .fault => false

end Sys2Proof.Machine
end

