-- ==== Sys2Proof/Machine/Ops.lean ====
section
/-! DEFINITION. The named operations: the three stores (R60 to R66), the writes of the registers, reply and fault
entry (R13, R245), reset (R283), and the actions COUNTSYM, ENCSYM and EMIT (R122, R142, R203). -/

namespace Sys2Proof.Machine

/-! ### The stores -/

/-- Where a symbol stands in the order of the stores: shorter symbols first, then by bytes. The place of a cell is not
architectural (R61); the order only makes equal arrays equal data (log 9). -/
def rank (s : Symbol) : Nat := s.foldl (fun n b => n * 256 + b.toNat + 1) 0

/-- `CNT[s]` or `OCC[s]`: the value of the cell (R12); 0 where nothing is listed (R29). -/
def Counters.get : Counters → Symbol → Nat
  | [], _ => 0
  | (k, v) :: rest, s => if k = s then v else Counters.get rest s

/-- `CNT[s] <- v` or `OCC[s] <- v` (R12), keeping the cells sorted and dropping a cell that becomes 0. -/
def Counters.set : Counters → Symbol → Nat → Counters
  | [], s, v => if v = 0 then [] else [(s, v)]
  | (k, u) :: rest, s, v =>
    if k = s then (if v = 0 then rest else (s, v) :: rest)
    else if rank s < rank k then (if v = 0 then (k, u) :: rest else (s, v) :: (k, u) :: rest)
    else (k, u) :: Counters.set rest s v

/-- The sum of all cells (R41). -/
def Counters.total (c : Counters) : Nat := (c.map Prod.snd).sum

/-- The canonical form: symbols strictly rising, no cell 0. -/
def Counters.wf : Counters → Bool
  | [] => true
  | (k, v) :: rest => v != 0 && rest.all (fun e => decide (rank k < rank e.1)) && Counters.wf rest

/-- The order of the table's entries: by symbol, then by index. -/
def TableEntry.before (a b : TableEntry) : Bool :=
  decide (rank a.sym < rank b.sym) || (a.sym == b.sym && decide (a.idx < b.idx))

/-- The key of an entry is `(s, k)`. -/
def TableEntry.isAt (e : TableEntry) (s : Symbol) (k : Nat) : Bool := e.sym == s && e.idx == k

/-- `TblRead(s, k)` (R66). -/
def Table.read : Table → Symbol → Nat → Option Nat
  | [], _, _ => none
  | e :: rest, s, k => if e.isAt s k then some e.slot else Table.read rest s k

/-- Adds an entry in its place; an entry at the same key is replaced. -/
def Table.insert : Table → TableEntry → Table
  | [], e => [e]
  | d :: rest, e =>
    if d.isAt e.sym e.idx then e :: rest
    else if e.before d then e :: d :: rest
    else d :: Table.insert rest e

/-- The table a listing of entries stands for; of two entries at one key the earlier counts (log 3). -/
def Table.ofEntries (entries : List TableEntry) : Table := entries.foldr (fun e t => Table.insert t e) []

/-- The canonical form: keys strictly rising, so no key twice (R170: a partial function). -/
def Table.wf : Table → Bool
  | [] => true
  | e :: rest => rest.all (fun d => e.before d) && Table.wf rest

/-- All three stores are in canonical form. -/
def Memory.wf (s : State) : Bool := s.cnt.wf && s.occ.wf && s.tbl.wf

/-! ### Writes of the state -/

/-- Puts a response on the response port (R13, R95). -/
def State.answer (s : State) (st : Status) (d : Nat) : State := { s with resp := some ⟨st, d⟩ }

/-- `PHASE <- p`. -/
def State.setPhase (s : State) (p : Phase) : State := { s with phase := p }

/-- `BUF <- b`. -/
def State.setBuf (s : State) (b : Symbol) : State := { s with buf := b }

/-- `SOP <- y`. -/
def State.setSop (s : State) (y : Symbol) : State := { s with sop := y }

/-- `W <- v`. -/
def State.setW (s : State) (v : BitVec 8) : State := { s with w := v }

/-- `BASE <- v`. -/
def State.setBase (s : State) (v : BitVec 24) : State := { s with base := v }

/-- `SCALE <- v`. -/
def State.setScale (s : State) (v : BitVec 24) : State := { s with scale := v }

/-- The two updates of COUNTSYM: `CNT[y] <- n` and `NTOT <- NTOT + 1` (R142). -/
def State.countUp (s : State) (y : Symbol) (n : Nat) : State := { s with cnt := s.cnt.set y n, ntot := s.ntot + 1 }

/-- The two updates of ENCSYM: `X <- v` and `OCC[y] <- k` (R203). -/
def State.moveTo (s : State) (v : Nat) (y : Symbol) (k : Nat) : State := { s with x := v, occ := s.occ.set y k }

/-- The updates of `CBEGIN` (R141); the clears are whole (R64). -/
def State.openCount (s : State) : State :=
  { s with cnt := [], occ := [], ntot := 0, tsize := 0, x := 0, buf := [], phase := .count }

/-- The updates of `EBEGIN` with table size `l` (R201). -/
def State.openEncode (s : State) (l : Nat) : State :=
  { s with tsize := l, x := l, occ := [], buf := [], phase := .encode }

/-- The writes of fault entry (R245): the error report and the phase; all else keeps its value. -/
def State.enterFault (s : State) (f : FaultKind) (y : Symbol) (k : Nat) : State :=
  { s with errCode := some f, errSym := y, errIdx := k, phase := .fault }

/-- Every piece of state of R20 takes its reset value (R283). The build parameters, the table and the ports are no
part of it: "The table is not HAU state and reset does not touch it". -/
def State.clear (s : State) : State :=
  { State.resetFor s.build with tbl := s.tbl, inputs := s.inputs, resp := s.resp, draws := s.draws }

/-! ### Reply and fault entry -/

/-- The outcome of a command or of a port event. -/
abbrev Result := Host.Outcome State Fault Refusal

/-- `reply(st, d)`: ends a command (R13). -/
def reply (st : Status) (d : Nat) (s : State) : Result := .next (s.answer st d)

/-- `reply(REFUSED_PHASE, 0)`, no state change (R96, R248). -/
def refusePhase (s : State) : Result := reply .refusedPhase 0 s

/-- `reply(REFUSED_ARG, 0)`, no state change (R96, R248). -/
def refuseArg (s : State) : Result := reply .refusedArg 0 s

/-- `raise F(y, k)`: fault entry, the one shared operation (R245). There is no return from it beside reset (R252). -/
def raise (f : FaultKind) (y : Symbol) (k : Nat) (s : State) : Result := reply .fault f.code (s.enterFault f y k)

/-! ### The actions -/

/-- What an action does: it returns a state and a value, or raises a fault and changes nothing. -/
inductive ActionResult where
  | done (s : State) (d : Nat)
  | raised (f : FaultKind) (y : Symbol) (k : Nat)
deriving DecidableEq, Repr

/-- The largest value of a counter, `2^CW - 1` (R8). -/
def counterMax (b : Build) : Nat := 2 ^ b.cw - 1

/-- COUNTSYM(y) (R142). -/
def countSym (y : Symbol) (s : State) : ActionResult :=
  if s.ntot = counterMax s.build then .raised .counterOverflow y (s.cnt.get y)
  else .done (s.countUp y (s.cnt.get y + 1)) (s.cnt.get y + 1)

/-- The slot is outside the working interval `[TSIZE, BASE*TSIZE)` (R203, R246). -/
def outOfInterval (s : State) (v : Nat) : Bool := decide (v < s.tsize) || decide (s.base.toNat * s.tsize ≤ v)

/-- ENCSYM(y) (R203), its faults in the order of R250. -/
def encSym (y : Symbol) (s : State) : ActionResult :=
  if s.occ.get y = counterMax s.build then .raised .counterOverflow y (s.occ.get y)
  else
    match s.tbl.read y (s.occ.get y + 1) with
    | none => .raised .unknownSymbolOccurrence y (s.occ.get y + 1)
    | some v =>
      if outOfInterval s v then .raised .tableRange y (s.occ.get y + 1)
      else .done (s.moveTo v y (s.occ.get y + 1)) v

/-- EMIT(y) (R122): COUNTSYM in phase COUNT, ENCSYM in phase ENCODE; never called in another phase. -/
def emit (y : Symbol) (s : State) : ActionResult :=
  if s.phase = .count then countSym y s else encSym y s

/-- Ends a command with EMIT's result: `reply(SYM, d)` after the command's last update, or the fault (R13: "no update
written after it in the pseudocode happens"). -/
def finishEmit (r : ActionResult) (s : State) (last : State → State) : Result :=
  match r with
  | .done t d => reply .sym d (last t)
  | .raised f y k => raise f y k s

end Sys2Proof.Machine
end

