-- ==== Sys2Proof/Machine/Operands.lean ====
section
/-! DEFINITION. What the operands of `RD` name: the registers, their values and the phases they may be read in
(R14, R37, R38, R39, R226), and the legal operand values of the configuration commands. -/

namespace Sys2Proof.Machine

/-- The registers `RD` can read (R38). -/
inductive Register where
  | status
  | w
  | base
  | scale
  | ntot
  | tsize
  | x
  | errcode
  | errsym
  | erridx
  | sop
deriving DecidableEq, Repr

/-- The register with a number (R38); `none` for the reserved numbers 11 to 255. -/
def Register.ofNumber (r : Byte) : Option Register :=
  match r.toNat with
  | 0 => some .status
  | 1 => some .w
  | 2 => some .base
  | 3 => some .scale
  | 4 => some .ntot
  | 5 => some .tsize
  | 6 => some .x
  | 7 => some .errcode
  | 8 => some .errsym
  | 9 => some .erridx
  | 10 => some .sop
  | _ => none

/-- The readability classes (R39). -/
inductive ReadClass where
  /-- C: configuration, status, error report, query operand. -/
  | c
  /-- H: histogram results. -/
  | h
  /-- E: encoder results. -/
  | e
deriving DecidableEq, Repr

/-- The class of a register (R38). -/
def Register.readClass : Register → ReadClass
  | .status => .c
  | .w => .c
  | .base => .c
  | .scale => .c
  | .ntot => .h
  | .tsize => .e
  | .x => .e
  | .errcode => .c
  | .errsym => .c
  | .erridx => .c
  | .sop => .c

/-- The phases a class may be read in (R39). -/
def ReadClass.readable (cls : ReadClass) (p : Phase) : Bool :=
  match cls with
  | .c => true
  | .h => p != .count && p != .fault
  | .e => p == .encode || p == .encoded

/-- The number whose base-256 digits are the bytes, the first the most significant (R14). -/
def bigEndian (s : Symbol) : Nat := s.foldl (fun n b => n * 256 + b.toNat) 0

/-- `pack(s)` (R14): the length above bit 8*WMAX, the bytes right-aligned below; `pack([]) = 0`. -/
def pack (b : Build) (s : Symbol) : Nat := s.length * 2 ^ (8 * b.wmax) + bigEndian s

/-- `STATUS` (R37): PHASE in bits [2:0], len(BUF) in bits [15:8], len(SOP) in bits [23:16]. -/
def statusValue (s : State) : Nat := s.phase.code + 2 ^ 8 * s.buf.length + 2 ^ 16 * s.sop.length

/-- `value(r)` (R38). -/
def registerValue (r : Register) (s : State) : Nat :=
  match r with
  | .status => statusValue s
  | .w => s.w.toNat
  | .base => s.base.toNat
  | .scale => s.scale.toNat
  | .ntot => s.ntot
  | .tsize => s.tsize
  | .x => s.x
  | .errcode => errCodeNumber s.errCode
  | .errsym => pack s.build s.errSym
  | .erridx => s.errIdx
  | .sop => pack s.build s.sop

/-- A pass is open: the phases in which `PUSH`, `END` and `SRCERR` are legal (R40). -/
def Phase.inPass (p : Phase) : Bool := p == .count || p == .encode

/-- The phases in which `SETB` and `SETK` are legal (R40). -/
def Phase.configurable (p : Phase) : Bool := p == .idle || p == .counted

/-- The phases from which a count pass can begin (R40). -/
def Phase.mayCount (p : Phase) : Bool := p == .idle || p == .counted || p == .encoded

/-- The phases from which an encode pass can begin (R40). -/
def Phase.mayEncode (p : Phase) : Bool := p == .counted || p == .encoded

end Sys2Proof.Machine
end

