-- ==== Sys2Proof/Machine/Chunker.lean ====
section
/-! DEFINITION. The chunker front end: SETW, PUSH, END, SRCERR (`40_chunker.md`). -/

namespace Sys2Proof.Machine

/-- `SETW w` (R121). -/
def execSetw (w : Byte) (s : State) : Result :=
  if s.phase = .idle then
    if w.toNat = 0 ∨ s.build.wmax < w.toNat then refuseArg s else reply .ok w.toNat (s.setW w)
  else refusePhase s

/-- `PUSH b` (R123). -/
def execPush (b : Byte) (s : State) : Result :=
  if s.phase.inPass then
    if (s.buf ++ [b]).length < s.w.toNat then reply .ok 0 (s.setBuf (s.buf ++ [b]))
    else finishEmit (emit (s.buf ++ [b]) (s.setBuf [])) (s.setBuf []) id
  else refusePhase s

/-- The phase an `END` leaves a pass in (R125). -/
def Phase.afterEnd (p : Phase) : Phase := if p = .count then .counted else .encoded

/-- `END` (R125). -/
def execEnd (s : State) : Result :=
  if s.phase.inPass then
    if s.buf = [] then reply .ok 0 (s.setPhase s.phase.afterEnd)
    else finishEmit (emit s.buf (s.setBuf [])) (s.setBuf []) (fun t => t.setPhase s.phase.afterEnd)
  else refusePhase s

/-- `SRCERR` (R127). -/
def execSrcerr (s : State) : Result :=
  if s.phase.inPass then raise .sourceReadError [] 0 (s.setBuf []) else refusePhase s

end Sys2Proof.Machine
end

