-- ==== Sys2Proof/Machine/Control.lean ====
section
/-! DEFINITION. Control and read-out: NOP, RESET, RD (`45_control_readout.md`). -/

namespace Sys2Proof.Machine

/-- `NOP` (R224). -/
def execNop (s : State) : Result := reply .ok 0 s

/-- `RESET` (R225). -/
def execReset (s : State) : Result := reply .ok 0 s.clear

/-- `RD r` (R226). A reserved register number has no class, so its phase check passes (R98). -/
def execRd (r : Byte) (s : State) : Result :=
  match Register.ofNumber r with
  | none => refuseArg s
  | some q => if q.readClass.readable s.phase then reply .ok (registerValue q s) s else refusePhase s

end Sys2Proof.Machine
end

