-- ==== Sys2Proof/Machine/Encoder.lean ====
section
/-! DEFINITION. The encoder: EBEGIN, RDOCC (`44_encoder.md`). -/

namespace Sys2Proof.Machine

/-- RCTW's `table_size` L, the exact product `SCALE * NTOT` (R162, R164). -/
def tableSize (s : State) : Nat := s.scale.toNat * s.ntot

/-- `EBEGIN` (R201). -/
def execEbegin (s : State) : Result :=
  if s.phase.mayEncode then
    if s.base.toNat * tableSize s > 2 ^ s.build.sw then refuseArg s
    else reply .ok (tableSize s) (s.openEncode (tableSize s))
  else refusePhase s

/-- `RDOCC` (R205), class E. -/
def execRdocc (s : State) : Result :=
  if ReadClass.e.readable s.phase then
    if s.sop = [] then refuseArg s else reply .ok (s.occ.get s.sop) s
  else refusePhase s

end Sys2Proof.Machine
end

