-- ==== Sys2Proof/Machine/Histogram.lean ====
section
/-! DEFINITION. The frequency counter: CBEGIN, SYMB, RDCNT (`41_histogram.md`). -/

namespace Sys2Proof.Machine

/-- `CBEGIN` (R141). -/
def execCbegin (s : State) : Result :=
  if s.phase.mayCount then reply .ok 0 s.openCount else refusePhase s

/-- `SYMB first, b` (R143). -/
def execSymb (first : Bool) (b : Byte) (s : State) : Result :=
  if s.phase = .fault then refusePhase s
  else if first then reply .ok 1 (s.setSop [b])
  else if s.sop.length = s.build.wmax then refuseArg s
  else reply .ok (s.sop ++ [b]).length (s.setSop (s.sop ++ [b]))

/-- `RDCNT` (R144), class H. -/
def execRdcnt (s : State) : Result :=
  if ReadClass.h.readable s.phase then
    if s.sop = [] then refuseArg s else reply .ok (s.cnt.get s.sop) s
  else refusePhase s

end Sys2Proof.Machine
end

