-- ==== Sys2Proof/Machine/TableConfig.lean ====
section
/-! DEFINITION. Table configuration: SETB, SETK (`42_table_config.md`). -/

namespace Sys2Proof.Machine

/-- `SETB b` (R160). -/
def execSetb (b : Imm24) (s : State) : Result :=
  if s.phase.configurable then
    if b.toNat < 2 then refuseArg s else reply .ok b.toNat (s.setBase b)
  else refusePhase s

/-- `SETK k` (R161). -/
def execSetk (k : Imm24) (s : State) : Result :=
  if s.phase.configurable then
    if k.toNat < 1 then refuseArg s else reply .ok k.toNat (s.setScale k)
  else refusePhase s

end Sys2Proof.Machine
end

