-- ==== Sys2Proof/Machine/Dispatch.lean ====
section
/-! DEFINITION. The meaning of each command, one arm per constructor of `Instr`. -/

namespace Sys2Proof.Machine

def exec (i : Instr) (s : State) : Host.Outcome State Fault Refusal :=
  match i with
  | .nop => Sys2Proof.Machine.execNop s
  | .reset => Sys2Proof.Machine.execReset s
  | .rd r => Sys2Proof.Machine.execRd r s
  | .setw w => Sys2Proof.Machine.execSetw w s
  | .setb b => Sys2Proof.Machine.execSetb b s
  | .setk k => Sys2Proof.Machine.execSetk k s
  | .cbegin => Sys2Proof.Machine.execCbegin s
  | .ebegin => Sys2Proof.Machine.execEbegin s
  | .push b => Sys2Proof.Machine.execPush b s
  | .endStream => Sys2Proof.Machine.execEnd s
  | .srcerr => Sys2Proof.Machine.execSrcerr s
  | .symb first b => Sys2Proof.Machine.execSymb first b s
  | .rdcnt => Sys2Proof.Machine.execRdcnt s
  | .rdocc => Sys2Proof.Machine.execRdocc s

end Sys2Proof.Machine
end

