-- ==== Sys2Proof/Machine/Port.lean ====
section
/-! DEFINITION. The ports (D2): accepting a command word (R75, R98), taking a response (R95, R290), the reset input
(R280, R284), installing a table (R80, R173). -/

namespace Sys2Proof.Machine

/-- The host's events still to come. -/
def State.setInputs (s : State) (es : List PortEvent) : State := { s with inputs := es }

/-- The response port holds this response, or nothing. -/
def State.setResp (s : State) (r : Option Response) : State := { s with resp := r }

/-- The table store holds this table. -/
def State.setTbl (s : State) (t : Table) : State := { s with tbl := t }

/-- One free value has been drawn. -/
def State.drawn (s : State) : State := { s with draws := s.draws + 1 }

/-- What `rst` leaves on the response port: the reset input produces no response (R280); a response the host has not
taken may or may not appear, a free value (R284, U6; log 7). -/
def responseAfterRst (s : State) : Option Response :=
  if Config.pendingResponseSurvivesRst s.draws then s.resp else none

/-- Executes a command word (R97, R98): a word that is no command replies ILLEGAL and changes no state. -/
def runWord (w : CommandWord) (s : State) : Result :=
  match decode w with
  | none => reply .illegal 0 s
  | some i => exec i s

/-- The HAU accepts a command word once the host has taken the previous response (R95, R290). -/
def acceptWord (w : CommandWord) (s : State) : Result :=
  if s.resp = none then runWord w s else .refused .responseNotTaken

/-- The host takes the response (R290); with none there, nothing happens (log 2). -/
def takeResponse (s : State) : Result := .next (s.setResp none)

/-- The host puts a table in place (R173), which it may not do during an encode pass (R80, R291). -/
def installTable (entries : List TableEntry) (s : State) : Result :=
  if s.phase = .encode then .refused .tableChangedInPass else .next (s.setTbl (Table.ofEntries entries))

/-- The reset input (R280, R283, R284). -/
def resetInput (s : State) : Result := .next ((s.clear.setResp (responseAfterRst s)).drawn)

/-- One port event. -/
def handle (e : PortEvent) (s : State) : Result :=
  match e with
  | .command w => acceptWord w s
  | .takeResponse => takeResponse s
  | .installTable entries => installTable entries s
  | .rst => resetInput s

/-- The next port event, if any. With none the HAU waits and holds its state (R19, R129, R270). -/
def stepPorts (s : State) : Result :=
  match s.inputs with
  | [] => .next s
  | e :: rest => handle e (s.setInputs rest)

/-- `s` with a command word presented on the command port as the host's next event, the previous response taken. -/
def presentWord (s : State) (w : CommandWord) : State := (s.setInputs (.command w :: s.inputs)).setResp none

end Sys2Proof.Machine
end

