-- ==== Sys2Proof/Machine/Step.lean ====
section
/-! DEFINITION. One step of the machine: the HAU takes what the host does next at its ports (R19, R75). -/

namespace Sys2Proof.Machine

/-- One step: the next port event, a command word among them. -/
def step (s : State) : Host.Outcome State Fault Refusal := stepPorts s

/-- `s` with the command word `w` presented on the command port, so that the next step accepts and runs it. A command
is accepted only after the previous response is taken (R290), so the response port is emptied. -/
def State.withFetchWord (s : State) (nbits w : Nat) : State := presentWord s (tableWord nbits w)

end Sys2Proof.Machine
end

