-- ==== Sys2Proof/Machine/Assembler.lean ====
section
/-! DEFINITION. The notation of the spec's test vectors: one command a line (R99) and the pseudo-commands (R100). It is
host-side: no step reads it. -/

namespace Sys2Proof.Machine

/-- `PUSHS "str"` (R100): one `PUSH` per byte, in order. -/
def pushs (bytes : List Byte) : List Instr := bytes.map Instr.push

/-- `QSYM "str"` (R100): the string has 1 to `WMAX` bytes. -/
def qsym (wmax : Nat) : List Byte → Option (List Instr)
  | [] => none
  | b :: rest =>
    if rest.length < wmax then some (Instr.symb true b :: rest.map (Instr.symb false)) else none

/-- `COUNT "str"` (R100). -/
def countPass (bytes : List Byte) : List Instr := Instr.cbegin :: pushs bytes ++ [Instr.endStream]

/-- `ENCODE "str"` (R100). -/
def encodePass (bytes : List Byte) : List Instr := Instr.ebegin :: pushs bytes ++ [Instr.endStream]

/-- The tokens of a line. -/
inductive Token where
  /-- A mnemonic, a number or a register name. -/
  | word (cs : List Char)
  /-- A byte in single quotes. -/
  | byte (b : Byte)
  /-- A string in double quotes. -/
  | str (bytes : List Byte)
  | comma
deriving DecidableEq, Repr

/-- One byte of a quoted text with the escapes of R99, and what follows it. DESIGN CHOICE (log 14): a character of
code below 256 stands for the byte of that code, outside ASCII too, a character above for none; a quote may stand in
single quotes without an escape. -/
def readByte : List Char → Option (Byte × List Char)
  | [] => none
  | '\\' :: 'n' :: rest => some (0x0A, rest)
  | '\\' :: '0' :: rest => some (0x00, rest)
  | '\\' :: '\\' :: rest => some (0x5C, rest)
  | '\\' :: '\'' :: rest => some (0x27, rest)
  | '\\' :: _ => none
  | c :: rest => if c.toNat < 256 then some (BitVec.ofNat 8 c.toNat, rest) else none

/-- The bytes up to the closing double quote, and what follows it. -/
def readString : (fuel : Nat) → List Char → Option (List Byte × List Char)
  | 0, _ => none
  | _ + 1, '"' :: rest => some ([], rest)
  | fuel + 1, cs =>
    match readByte cs with
    | none => none
    | some (b, rest) => (readString fuel rest).map (fun r => (b :: r.1, r.2))

/-- Splits a line into tokens; `;` starts a comment (R99). -/
def tokens : (fuel : Nat) → List Char → Option (List Token)
  | 0, _ => none
  | _ + 1, [] => some []
  | _ + 1, ';' :: _ => some []
  | fuel + 1, ',' :: rest => (tokens fuel rest).map (Token.comma :: ·)
  | fuel + 1, ' ' :: rest => tokens fuel rest
  | fuel + 1, '"' :: rest =>
    match readString (fuel + 1) rest with
    | none => none
    | some (bytes, rest') => (tokens fuel rest').map (Token.str bytes :: ·)
  | fuel + 1, '\'' :: rest =>
    match readByte rest with
    | some (b, '\'' :: rest') => (tokens fuel rest').map (Token.byte b :: ·)
    | _ => none
  | fuel + 1, c :: rest =>
    if c.isAlphanum then
      (tokens fuel (rest.dropWhile Char.isAlphanum)).map (Token.word (c :: rest.takeWhile Char.isAlphanum) :: ·)
    else none

/-- The value of a hexadecimal digit. -/
def hexDigit (c : Char) : Option Nat :=
  if '0' ≤ c ∧ c ≤ '9' then some (c.toNat - '0'.toNat)
  else if 'a' ≤ c ∧ c ≤ 'f' then some (c.toNat - 'a'.toNat + 10)
  else if 'A' ≤ c ∧ c ≤ 'F' then some (c.toNat - 'A'.toNat + 10)
  else none

/-- The number its digits write in a base, `none` if a digit is none of the base. -/
def digits (base : Nat) : (acc : Nat) → List Char → Option Nat
  | acc, [] => some acc
  | acc, c :: rest =>
    match hexDigit c with
    | some d => if d < base then digits base (acc * base + d) rest else none
    | none => none

/-- A number in decimal or `0x` hexadecimal (R99). -/
def numeral : List Char → Option Nat
  | [] => none
  | '0' :: 'x' :: [] => none
  | '0' :: 'x' :: ds => digits 16 0 ds
  | ds => digits 10 0 ds

/-- The value of a number or of a byte in quotes (R99). DESIGN CHOICE (log 14): a byte in quotes may stand for every
operand, as the number it is, also for one that is not a byte. -/
def operandValue : Token → Option Nat
  | .word cs => numeral cs
  | .byte b => some b.toNat
  | .str _ => none
  | .comma => none

/-- An operand that has `n` bits; a value that does not fit gives none (DESIGN CHOICE, log 14). -/
def operand (n : Nat) (t : Token) : Option (BitVec n) :=
  match operandValue t with
  | some v => if v < 2 ^ n then some (BitVec.ofNat n v) else none
  | none => none

/-- The register names `RD` takes (R38, R99). -/
def registerNames : List (String × Byte) :=
  [("STATUS", 0), ("W", 1), ("BASE", 2), ("SCALE", 3), ("NTOT", 4), ("TSIZE", 5), ("X", 6), ("ERRCODE", 7),
   ("ERRSYM", 8), ("ERRIDX", 9), ("SOP", 10)]

/-- The operand of `RD`: a register name or a number (R99). -/
def registerOperand (t : Token) : Option Byte :=
  match registerNames.find? (fun r => t == Token.word r.1.toList) with
  | some r => some r.2
  | none => operand 8 t

/-- The commands of a mnemonic and its operand tokens (R99, R100). -/
def assembleTokens (wmax : Nat) (m : List Char) (ts : List Token) : Option (List Instr) :=
  match ts with
  | [] =>
    if m = "NOP".toList then some [.nop]
    else if m = "RESET".toList then some [.reset]
    else if m = "CBEGIN".toList then some [.cbegin]
    else if m = "EBEGIN".toList then some [.ebegin]
    else if m = "END".toList then some [.endStream]
    else if m = "SRCERR".toList then some [.srcerr]
    else if m = "RDCNT".toList then some [.rdcnt]
    else if m = "RDOCC".toList then some [.rdocc]
    else none
  | [.str bytes] =>
    if m = "PUSHS".toList then some (pushs bytes)
    else if m = "QSYM".toList then qsym wmax bytes
    else if m = "COUNT".toList then some (countPass bytes)
    else if m = "ENCODE".toList then some (encodePass bytes)
    else none
  | [t] =>
    if m = "RD".toList then (registerOperand t).map (fun r => [.rd r])
    else if m = "SETW".toList then (operand 8 t).map (fun w => [.setw w])
    else if m = "SETB".toList then (operand 24 t).map (fun b => [.setb b])
    else if m = "SETK".toList then (operand 24 t).map (fun k => [.setk k])
    else if m = "PUSH".toList then (operand 8 t).map (fun b => [.push b])
    else none
  | [f, .comma, t] =>
    if m = "SYMB".toList then
      match operand 1 f, operand 8 t with
      | some first, some b => some [.symb (first.getLsbD 0) b]
      | _, _ => none
    else none
  | _ => none

/-- The commands of one line (R99, R100); an empty line or a comment gives none. -/
def assembleLine (wmax : Nat) (line : String) : Option (List Instr) :=
  match tokens (line.toList.length + 1) line.toList with
  | some [] => some []
  | some (.word m :: ts) => assembleTokens wmax m ts
  | _ => none

end Sys2Proof.Machine
end

