-- ==== Sys2Proof/Machine/Builder.lean ====
section
/-! DEFINITION. The host's table builder as a reference function (R175 to R185). No command runs it; nothing in the
commands depends on how a table was made. A priority value is the exact rational `key / (2*freq)` (R182; log 10). -/

namespace Sys2Proof.Machine

/-- A member of the builder's queue: a symbol, its frequency, its priority `value = key / (2*freq)`, and its current
occurrence-count `xs` (R176). -/
structure QueueMember where
  sym : Symbol
  freq : Nat
  key : Nat
  xs : Nat
deriving DecidableEq, Repr

/-- What the builder gives: the entries in slot order, or one of its two failures (R175, R181). -/
inductive BuildResult where
  | table (entries : List TableEntry)
  | failed (f : FaultKind)
deriving DecidableEq, Repr

/-- Seeding (R176): `value = N / (2*freq)`, `xs = freq`. -/
def QueueMember.seed (n : Nat) (c : Symbol × Nat) : QueueMember := { sym := c.1, freq := c.2, key := n, xs := c.2 }

/-- After an allocation (R178 step 3c): `value += N / freq`, `xs += 1`. -/
def QueueMember.advance (n : Nat) (m : QueueMember) : QueueMember := { m with key := m.key + 2 * n, xs := m.xs + 1 }

/-- The queue order (R177, R179): value ascending, then frequency descending, then `tie3`, the order among symbols that
R185 leaves open. -/
def QueueMember.precedes (tie3 : Symbol → Symbol → Bool) (a b : QueueMember) : Bool :=
  decide (a.key * (2 * b.freq) < b.key * (2 * a.freq)) ||
    (a.key * (2 * b.freq) == b.key * (2 * a.freq) &&
      (decide (b.freq < a.freq) || (a.freq == b.freq && tie3 a.sym b.sym)))

/-- Pops the least member (R178 step 3a); `none` for an empty queue. -/
def popLeast (tie3 : Symbol → Symbol → Bool) : List QueueMember → Option (QueueMember × List QueueMember)
  | [] => none
  | m :: rest =>
    match popLeast tie3 rest with
    | none => some (m, rest)
    | some (b, others) => if b.precedes tie3 m then some (b, m :: others) else some (m, rest)

/-- Puts one more entry before a result. -/
def BuildResult.cons (e : TableEntry) : BuildResult → BuildResult
  | .table es => .table (e :: es)
  | .failed f => .failed f

/-- Allocation of the `count` slots from `x` on (R178, R179): pop, assign `(symbol, xs)` to the slot, push back. -/
def allocate (tie3 : Symbol → Symbol → Bool) (n : Nat) : (count x : Nat) → List QueueMember → BuildResult
  | 0, _, _ => .table []
  | count + 1, x, q =>
    match popLeast tie3 q with
    | none => .failed .tableExhausted
    | some (m, others) => (allocate tie3 n count (x + 1) (m.advance n :: others)).cons ⟨m.sym, m.xs, x⟩

/-- `BUILD(F, N, B, L)` (R179): `B*L - L` slots from `L` on. -/
def buildTable (tie3 : Symbol → Symbol → Bool) (f : Counters) (n b l : Nat) : BuildResult :=
  if f.any (fun c => c.2 == 0) then .failed .degenerateDistribution
  else allocate tie3 n (b * l - l) l (f.map (QueueMember.seed n))

/-- Step 5 of a run (R285): the host builds from the histogram, `BASE` and `L = SCALE*NTOT`. -/
def hostBuild (tie3 : Symbol → Symbol → Bool) (s : State) : BuildResult :=
  buildTable tie3 s.cnt s.ntot s.base.toNat (tableSize s)

end Sys2Proof.Machine
end

