-- ==== Sys2Proof/Safety.lean ====
section
/-! DEFINITION. The terms the claims use: the invariants of R41 to R44, the phase table R40, what a well-formed Spread
Table is (R171), runs of commands (R75), and the chunks of a byte stream (R128). -/

namespace Sys2Proof.Machine

/-! ### The phase table -/

/-- The phases in whose row R40 lists a command; for `RD` the phases its register's class is listed for, all of them
for a reserved register number, whose phase check passes (R98). -/
def listedPhases : Instr → List Phase
  | .nop => [.idle, .count, .counted, .encode, .encoded, .fault]
  | .reset => [.idle, .count, .counted, .encode, .encoded, .fault]
  | .rd r =>
    if r = 4 then [.idle, .counted, .encode, .encoded]
    else if r = 5 ∨ r = 6 then [.encode, .encoded]
    else [.idle, .count, .counted, .encode, .encoded, .fault]
  | .setw _ => [.idle]
  | .setb _ => [.idle, .counted]
  | .setk _ => [.idle, .counted]
  | .cbegin => [.idle, .counted, .encoded]
  | .ebegin => [.counted, .encoded]
  | .push _ => [.count, .encode]
  | .endStream => [.count, .encode]
  | .srcerr => [.count, .encode]
  | .symb _ _ => [.idle, .count, .counted, .encode, .encoded]
  | .rdcnt => [.idle, .counted, .encode, .encoded]
  | .rdocc => [.encode, .encoded]

/-- The next phases R40 gives a listed command; "f" marks a transition taken only with a fault. -/
def phasesAfter (i : Instr) (p : Phase) : List Phase :=
  match i with
  | .nop => [p]
  | .reset => [.idle]
  | .rd _ => [p]
  | .setw _ => [p]
  | .setb _ => [p]
  | .setk _ => [p]
  | .cbegin => [.count]
  | .ebegin => [.encode, p]
  | .push _ => [p, .fault]
  | .endStream => if p = .count then [.counted, .fault] else [.encoded, .fault]
  | .srcerr => [.fault]
  | .symb _ _ => [p]
  | .rdcnt => [p]
  | .rdocc => [p]

/-- The fault kinds R40 lists for a command in a phase. -/
def faultsListed (i : Instr) (p : Phase) : List FaultKind :=
  let emitFaults : List FaultKind :=
    if p = .count then [.counterOverflow] else [.unknownSymbolOccurrence, .tableRange, .counterOverflow]
  match i with
  | .nop => []
  | .reset => []
  | .rd _ => []
  | .setw _ => []
  | .setb _ => []
  | .setk _ => []
  | .cbegin => []
  | .ebegin => []
  | .push _ => emitFaults
  | .endStream => emitFaults
  | .srcerr => [.sourceReadError]
  | .symb _ _ => []
  | .rdcnt => []
  | .rdocc => []

/-! ### What a response leaves -/

/-- `s` with the response `(st, d)` on the response port, nothing else changed. -/
abbrev saying (s : State) (st : Status) (d : Nat) : State := { s with resp := some ⟨st, d⟩ }

/-- `s` after the fault entry of R245 in a command of a pass: the report, phase FAULT, BUF empty, the response
(FAULT, code), nothing else changed. -/
abbrev faulted (s : State) (f : FaultKind) (y : Symbol) (k : Nat) : State :=
  { s with buf := [], errCode := some f, errSym := y, errIdx := k, phase := .fault, resp := some ⟨.fault, f.code⟩ }

/-! ### The invariant -/

/-- Every listed symbol is one of `Sym(n)` (R11). -/
abbrev symbolsWithin (c : Counters) (n : Nat) : Prop := ∀ e ∈ c, 1 ≤ e.1.length ∧ e.1.length ≤ n

/-- No counter is above `2^CW - 1` (R8). -/
abbrev countersFit (c : Counters) (b : Build) : Prop := ∀ e ∈ c, e.2 ≤ counterMax b

/-- The configuration registers hold legal values (R26, R27) and the build parameters too (R8). -/
abbrev configLegal (s : State) : Prop :=
  s.build.Legal ∧ 1 ≤ s.w.toNat ∧ s.w.toNat ≤ s.build.wmax ∧ 2 ≤ s.base.toNat ∧ 1 ≤ s.scale.toNat

/-- The chunk buffer (R42) and the query operand (R34). -/
abbrev buffersLegal (s : State) : Prop :=
  s.buf.length < s.w.toNat ∧ (s.phase.inPass = false → s.buf = []) ∧ s.sop.length ≤ s.build.wmax

/-- The histogram: frequency conservation (R41), the keys of a run (R29), the width of the counters (R8), and an empty
histogram in IDLE (R144). -/
abbrev histogramLegal (s : State) : Prop :=
  s.cnt.wf = true ∧ symbolsWithin s.cnt s.w.toNat ∧ s.cnt.total = s.ntot ∧ s.ntot ≤ counterMax s.build ∧
    (s.phase = .idle → s.cnt = [])

/-- The occurrence counters are canonical, keyed by symbols, and fit (R33). -/
abbrev occurrencesLegal (s : State) : Prop :=
  s.occ.wf = true ∧ symbolsWithin s.occ s.w.toNat ∧ countersFit s.occ s.build

/-- The encoder registers: cleared before the first `EBEGIN` of a run (R44), the state interval in an encode pass and
after it (R43), and never above `2^SW - 1` (R164). -/
abbrev encoderLegal (s : State) : Prop :=
  ((s.phase = .idle ∨ s.phase = .count ∨ s.phase = .counted) → s.tsize = 0 ∧ s.x = 0 ∧ s.occ = []) ∧
  ((s.phase = .encode ∨ s.phase = .encoded) →
    s.tsize = tableSize s ∧ s.base.toNat * s.tsize ≤ 2 ^ s.build.sw ∧
      (1 ≤ s.tsize → s.tsize ≤ s.x ∧ s.x < s.base.toNat * s.tsize) ∧ (s.tsize = 0 → s.x = 0)) ∧
  s.tsize < 2 ^ s.build.sw ∧ s.x < 2 ^ s.build.sw

/-- The error report (R35, R36, R44, R247, R252). -/
abbrev reportLegal (s : State) : Prop :=
  (s.errCode = none ↔ s.phase ≠ .fault) ∧ (s.errCode = none → s.errSym = [] ∧ s.errIdx = 0) ∧
    s.errCode ≠ some .degenerateDistribution ∧ s.errCode ≠ some .tableExhausted ∧
    s.errSym.length ≤ s.build.wmax ∧ s.errIdx ≤ counterMax s.build

/-- A response that is there fits its `8 + DW` bits (R95). -/
abbrev responseLegal (s : State) : Prop := ∀ r, s.resp = some r → r.data < 2 ^ dataWidth s.build

/-- The invariant: all of the above, and every store in canonical form. -/
structure StateInv (s : State) : Prop where
  config : configLegal s
  buffers : buffersLegal s
  histogram : histogramLegal s
  occurrences : occurrencesLegal s
  encoder : encoderLegal s
  report : reportLegal s
  response : responseLegal s
  table : s.tbl.wf = true

/-- The states a HAU of legal build parameters can reach from reset, whatever the host does at its ports. -/
inductive Reachable : State → Prop where
  | reset (b : Build) (inputs : List PortEvent) : b.Legal → Reachable { State.resetFor b with inputs := inputs }
  | step {s t : State} : Reachable s → Machine.step s = .next t → Reachable t

/-! ### The Spread Table -/

/-- `WF(TBL, B, L)` (R171): (a) every value lies in `[L, B*L)`, (b) no two keys have the same value, (c) every integer
of `[L, B*L)` is the value of some key. -/
structure SpreadTable (t : Symbol → Nat → Option Nat) (b l : Nat) : Prop where
  range : ∀ s k v, t s k = some v → l ≤ v ∧ v < b * l
  injective : ∀ s k s' k' v, t s k = some v → t s' k' = some v → s = s' ∧ k = k'
  surjective : ∀ v, l ≤ v → v < b * l → ∃ s k, t s k = some v

/-! ### Runs -/

/-- The state after a sequence of commands: the left fold of the step over it (R75). -/
def runCommands : List Instr → State → Result
  | [], s => .next s
  | i :: rest, s =>
    match exec i s with
    | .next t => runCommands rest t
    | .fault f => .fault f
    | .refused r => .refused r

/-- The responses of a sequence of commands, one per command, in order (R95). -/
def responses : List Instr → State → List (Option Response)
  | [], _ => []
  | i :: rest, s =>
    match exec i s with
    | .next t => t.resp :: responses rest t
    | .fault _ => []
    | .refused _ => []

/-- The chunks of a byte stream at width `w`, a partial chunk `buf` already read: each of length `w`, the last possibly
shorter (R120, R128). -/
def chunksFrom (w : Nat) (buf : Symbol) : List Byte → List Symbol
  | [] => if buf = [] then [] else [buf]
  | b :: rest =>
    if (buf ++ [b]).length < w then chunksFrom w (buf ++ [b]) rest else (buf ++ [b]) :: chunksFrom w [] rest

/-- The chunks of a byte stream (R128). -/
def chunks (w : Nat) (bytes : List Byte) : List Symbol := chunksFrom w [] bytes

/-- The slots of a symbol sequence: the table read at `(y, k)` with `k` the occurrence-index of `y`, of which `seen`
have been encoded before (R200, R206); `none` if a key is absent. -/
def slotWalk (t : Table) (seen : List Symbol) : List Symbol → Option (List Nat)
  | [] => some []
  | y :: rest =>
    match t.read y (seen.count y + 1) with
    | none => none
    | some v => (slotWalk t (y :: seen) rest).map (v :: ·)

/-- The data of the SYM responses, in order: RCTW's output (c) in an encode pass (R206). -/
def symData (rs : List (Option Response)) : List Nat :=
  rs.filterMap (fun r =>
    match r with
    | some ⟨.sym, d⟩ => some d
    | _ => none)

end Sys2Proof.Machine
end

