-- ==== Sys2Proof/Certificates/Slice0/Obligations.lean ====
section
/-! DEFINITION. The statements for the provers, from the numbered rules of spec/. -/

open Sys2Proof Sys2Proof.Machine

/-! ## Encoding and decoding -/

/-- R90 to R94, R98: no bit of a command's encoding is dropped. -/
def Obligations.DecodeEncodeRoundTrip : Prop :=
  ∀ i : Instr, decode (encode i) = some i

/-- R94, R98: each command has one word. -/
def Obligations.EncodeOfDecodedWord : Prop :=
  ∀ (w : CommandWord) (i : Instr), decode w = some i → encode i = w

/-- R98: "At most one row matches any word, because the masks include all eight opcode bits and the opcodes differ." -/
def Obligations.OpcodeRowsNeverOverlap : Prop :=
  ∀ w : CommandWord, opcodeTable.Pairwise (fun a b => ¬ (a.matchesWord w = true ∧ b.matchesWord w = true))

/-- R97: the words that are no command are those with an undefined opcode or a non-zero must-be-zero bit
(`CommandWord.wellFormed`, written from the formats, not from the masks); such a word replies (ILLEGAL, 0) in every
phase and changes no state; every other word is a command. -/
def Obligations.IllegalWordsReplyIllegal : Prop :=
  ∀ w : CommandWord,
    (w.wellFormed = true → ∃ i, decode w = some i ∧ ∀ s : State, runWord w s = exec i s) ∧
    (w.wellFormed = false → ∀ s : State, runWord w s = .next (saying s .illegal 0))

/-- R101: the encoding examples and the three illegal words. -/
def Obligations.SpecWordsDecode : Prop :=
  decode 0x00000000 = some .nop ∧ decode 0x01000000 = some .reset ∧ decode 0x02000004 = some (.rd 4) ∧
  decode 0x10000002 = some (.setw 2) ∧ decode 0x11000100 = some (.setb 256) ∧ decode 0x12000008 = some (.setk 8) ∧
  decode 0x20000000 = some .cbegin ∧ decode 0x21000000 = some .ebegin ∧ decode 0x22000061 = some (.push 0x61) ∧
  decode 0x23000000 = some .endStream ∧ decode 0x24000000 = some .srcerr ∧
  decode 0x30000161 = some (.symb true 0x61) ∧ decode 0x30000062 = some (.symb false 0x62) ∧
  decode 0x31000000 = some .rdcnt ∧ decode 0x32000000 = some .rdocc ∧
  decode 0x03000000 = none ∧ decode 0x22000161 = none ∧ decode 0x23000001 = none

/-! ## The step and the ports -/

/-- R75, R97, R98: a step runs the command the presented word decodes to, on the state without that word; a word that
decodes to nothing replies (ILLEGAL, 0). The list of port events is the model's (logs 1, 2). -/
def Obligations.StepRunsTheDecodedCommand : Prop :=
  ∀ (s : State) (w : CommandWord) (rest : List PortEvent), s.inputs = .command w :: rest → s.resp = none →
    (∀ i : Instr, decode w = some i → step s = exec i { s with inputs := rest }) ∧
    (decode w = none → step s = .next { s with inputs := rest, resp := some ⟨.illegal, 0⟩ })

/-- R19, R129, R270: the HAU has no step of its own; with nothing at its ports it holds its state. R290: the host
takes a response, which changes nothing else, and a command presented before that is given no meaning (U16). R80: a
table is installed outside an encode pass, and inside one the run is given no meaning (U15). The port events as such
are the model's (logs 1 to 3). -/
def Obligations.StepsOtherThanCommands : Prop :=
  (∀ s : State, s.inputs = [] → step s = .next s) ∧
  (∀ (s : State) (rest : List PortEvent), s.inputs = .takeResponse :: rest →
    step s = .next { s with inputs := rest, resp := none }) ∧
  (∀ (s : State) (w : CommandWord) (rest : List PortEvent), s.inputs = .command w :: rest → s.resp ≠ none →
    step s = .refused .responseNotTaken) ∧
  (∀ (s : State) (es : List TableEntry) (rest : List PortEvent), s.inputs = .installTable es :: rest →
    s.phase ≠ .encode →
      ∃ tbl : Table, step s = .next { s with inputs := rest, tbl := tbl } ∧
        ∀ y k, tbl.read y k = (es.find? (fun e => e.sym = y ∧ e.idx = k)).map TableEntry.slot) ∧
  (∀ (s : State) (es : List TableEntry) (rest : List PortEvent), s.inputs = .installTable es :: rest →
    s.phase = .encode → step s = .refused .tableChangedInPass)

/-! ## Reset -/

/-- R283: after reset every piece of state has the value of the table, for every build. R280: the reset input does the
same to every piece of state and produces no response; R284, U6: a response not yet taken may or may not appear
(a free value, log 7). The table and the ports are not touched. -/
def Obligations.ResetInputGivesTheResetState : Prop :=
  (∀ b : Build, ∃ r : State, State.resetFor b = r ∧ r.build = b ∧ r.phase = .idle ∧ r.w.toNat = 1 ∧
    r.base.toNat = 256 ∧ r.scale.toNat = 8 ∧ r.buf = [] ∧ (∀ y, r.cnt.get y = 0) ∧ r.ntot = 0 ∧ r.tsize = 0 ∧
    r.x = 0 ∧ (∀ y, r.occ.get y = 0) ∧ r.sop = [] ∧ r.errCode = none ∧ r.errSym = [] ∧ r.errIdx = 0) ∧
  (∀ (s : State) (rest : List PortEvent), s.inputs = .rst :: rest →
    ∃ (resp : Option Response) (draws : Nat), (resp = none ∨ resp = s.resp) ∧
      step s = .next { State.resetFor s.build with tbl := s.tbl, inputs := rest, resp := resp, draws := draws })

/-- R225: `RESET` is legal in every phase, gives every piece of state its reset value, and replies (OK, 0); it is the
transition of the reset input followed by a reply; no other command leaves phase FAULT, and no other command leads to
phase IDLE, the one phase in which `SETW` is legal. -/
def Obligations.ResetCommandRestoresEverything : Prop :=
  ∀ s : State,
    encode .reset = 0x01000000 ∧
    exec .reset s = .next { s with
      phase := .idle, w := 1, base := 256, scale := 8, buf := [], cnt := [], ntot := 0, tsize := 0, x := 0, occ := [],
      sop := [], errCode := none, errSym := [], errIdx := 0, resp := some ⟨.ok, 0⟩ } ∧
    (∃ t, resetInput s = .next t ∧
      exec .reset s = .next { t with resp := some ⟨.ok, 0⟩, draws := s.draws }) ∧
    (∀ (i : Instr) (t : State), i ≠ .reset → exec i s = .next t →
      (s.phase = .fault → t.phase = .fault) ∧ (s.phase ≠ .idle → t.phase ≠ .idle))

/-! ## The commands, one by one -/

/-- R224: `NOP` replies (OK, 0) in every phase and changes nothing. -/
def Obligations.NopRepliesOk : Prop :=
  ∀ s : State, encode .nop = 0x00000000 ∧ exec .nop s = .next (saying s .ok 0)

/-- R226, R38, R37: `RD r` gives the value of register `r` in the phases of its class (R39), is refused by phase
outside them, and refused by operand for the numbers 11 to 255. -/
def Obligations.RdReadsTheRegisters : Prop :=
  ∀ (r : Byte) (s : State),
    (encode (.rd r)).toNat = 0x02 * 2 ^ 24 + r.toNat ∧
    (r.toNat = 0 → exec (.rd r) s =
      .next (saying s .ok (s.phase.code + 2 ^ 8 * s.buf.length + 2 ^ 16 * s.sop.length))) ∧
    (r.toNat = 1 → exec (.rd r) s = .next (saying s .ok s.w.toNat)) ∧
    (r.toNat = 2 → exec (.rd r) s = .next (saying s .ok s.base.toNat)) ∧
    (r.toNat = 3 → exec (.rd r) s = .next (saying s .ok s.scale.toNat)) ∧
    (r.toNat = 4 → s.phase ≠ .count → s.phase ≠ .fault → exec (.rd r) s = .next (saying s .ok s.ntot)) ∧
    (r.toNat = 4 → (s.phase = .count ∨ s.phase = .fault) → exec (.rd r) s = .next (saying s .refusedPhase 0)) ∧
    (r.toNat = 5 → (s.phase = .encode ∨ s.phase = .encoded) → exec (.rd r) s = .next (saying s .ok s.tsize)) ∧
    (r.toNat = 6 → (s.phase = .encode ∨ s.phase = .encoded) → exec (.rd r) s = .next (saying s .ok s.x)) ∧
    ((r.toNat = 5 ∨ r.toNat = 6) → s.phase ≠ .encode → s.phase ≠ .encoded →
      exec (.rd r) s = .next (saying s .refusedPhase 0)) ∧
    (r.toNat = 7 → exec (.rd r) s = .next (saying s .ok (errCodeNumber s.errCode))) ∧
    (r.toNat = 8 → exec (.rd r) s = .next (saying s .ok (pack s.build s.errSym))) ∧
    (r.toNat = 9 → exec (.rd r) s = .next (saying s .ok s.errIdx)) ∧
    (r.toNat = 10 → exec (.rd r) s = .next (saying s .ok (pack s.build s.sop))) ∧
    (11 ≤ r.toNat → exec (.rd r) s = .next (saying s .refusedArg 0))

/-- R121: `SETW w`. Outside phase IDLE, which only `RESET` brings back, no other command changes the width. -/
def Obligations.SetwSetsTheWidth : Prop :=
  ∀ (w : Byte) (s : State),
    (encode (.setw w)).toNat = 0x10 * 2 ^ 24 + w.toNat ∧
    (s.phase ≠ .idle → exec (.setw w) s = .next (saying s .refusedPhase 0)) ∧
    (s.phase = .idle → (w.toNat = 0 ∨ s.build.wmax < w.toNat) → exec (.setw w) s = .next (saying s .refusedArg 0)) ∧
    (s.phase = .idle → 1 ≤ w.toNat → w.toNat ≤ s.build.wmax →
      exec (.setw w) s = .next { s with w := w, resp := some ⟨.ok, w.toNat⟩ }) ∧
    (∀ (i : Instr) (t : State), s.phase ≠ .idle → i ≠ .reset → exec i s = .next t →
      t.w = s.w ∧ t.phase ≠ .idle)

/-- R160: `SETB b`. Outside phases IDLE and COUNTED no command but `RESET` changes the base. -/
def Obligations.SetbSetsTheBase : Prop :=
  ∀ (b : Imm24) (s : State),
    (encode (.setb b)).toNat = 0x11 * 2 ^ 24 + b.toNat ∧
    (s.phase ≠ .idle → s.phase ≠ .counted → exec (.setb b) s = .next (saying s .refusedPhase 0)) ∧
    ((s.phase = .idle ∨ s.phase = .counted) → b.toNat < 2 → exec (.setb b) s = .next (saying s .refusedArg 0)) ∧
    ((s.phase = .idle ∨ s.phase = .counted) → 2 ≤ b.toNat →
      exec (.setb b) s = .next { s with base := b, resp := some ⟨.ok, b.toNat⟩ }) ∧
    (∀ (i : Instr) (t : State), s.phase ≠ .idle → s.phase ≠ .counted → i ≠ .reset → exec i s = .next t →
      t.base = s.base)

/-- R161: `SETK k`. A scale of 1 makes the table size of the next `EBEGIN` equal to `NTOT`. -/
def Obligations.SetkSetsTheScale : Prop :=
  ∀ (k : Imm24) (s : State),
    (encode (.setk k)).toNat = 0x12 * 2 ^ 24 + k.toNat ∧
    (s.phase ≠ .idle → s.phase ≠ .counted → exec (.setk k) s = .next (saying s .refusedPhase 0)) ∧
    ((s.phase = .idle ∨ s.phase = .counted) → k.toNat < 1 → exec (.setk k) s = .next (saying s .refusedArg 0)) ∧
    ((s.phase = .idle ∨ s.phase = .counted) → 1 ≤ k.toNat →
      exec (.setk k) s = .next { s with scale := k, resp := some ⟨.ok, k.toNat⟩ } ∧
        (k = 1 → tableSize { s with scale := k, resp := some ⟨.ok, k.toNat⟩ } = s.ntot))

/-- R141: `CBEGIN` clears every counter and the encoder registers and opens a count pass; all else is unchanged. -/
def Obligations.CbeginOpensACountPass : Prop :=
  ∀ s : State,
    encode .cbegin = 0x20000000 ∧
    ((s.phase = .count ∨ s.phase = .encode ∨ s.phase = .fault) →
      exec .cbegin s = .next (saying s .refusedPhase 0)) ∧
    ((s.phase = .idle ∨ s.phase = .counted ∨ s.phase = .encoded) →
      ∃ t, exec .cbegin s = .next t ∧ (∀ y, t.cnt.get y = 0) ∧ (∀ y, t.occ.get y = 0) ∧
        t = { s with cnt := t.cnt, occ := t.occ, ntot := 0, tsize := 0, x := 0, buf := [], phase := .count,
                     resp := some ⟨.ok, 0⟩ })

/-- R201: `EBEGIN` derives the table size `SCALE * NTOT`, is refused if the interval would not fit `X`, and otherwise
starts at `X = TSIZE` with every occurrence counter 0; all else is unchanged. -/
def Obligations.EbeginOpensAnEncodePass : Prop :=
  ∀ s : State,
    encode .ebegin = 0x21000000 ∧
    (s.phase ≠ .counted → s.phase ≠ .encoded → exec .ebegin s = .next (saying s .refusedPhase 0)) ∧
    ((s.phase = .counted ∨ s.phase = .encoded) → 2 ^ s.build.sw < s.base.toNat * (s.scale.toNat * s.ntot) →
      exec .ebegin s = .next (saying s .refusedArg 0)) ∧
    ((s.phase = .counted ∨ s.phase = .encoded) → s.base.toNat * (s.scale.toNat * s.ntot) ≤ 2 ^ s.build.sw →
      ∃ t, exec .ebegin s = .next t ∧ (∀ y, t.occ.get y = 0) ∧
        t = { s with occ := t.occ, tsize := s.scale.toNat * s.ntot, x := s.scale.toNat * s.ntot, buf := [],
                     phase := .encode, resp := some ⟨.ok, s.scale.toNat * s.ntot⟩ })

/-- R123 outside a completed symbol: `PUSH b` is refused outside a pass, and inside one only fills the buffer while
the chunk is shorter than `W`. -/
def Obligations.PushFillsTheBuffer : Prop :=
  ∀ (b : Byte) (s : State),
    (encode (.push b)).toNat = 0x22 * 2 ^ 24 + b.toNat ∧
    (s.phase ≠ .count → s.phase ≠ .encode → exec (.push b) s = .next (saying s .refusedPhase 0)) ∧
    ((s.phase = .count ∨ s.phase = .encode) → s.buf.length + 1 < s.w.toNat →
      exec (.push b) s = .next { s with buf := s.buf ++ [b], resp := some ⟨.ok, 0⟩ })

/-- R125 without a pending chunk: `END` is refused outside a pass, and closes a pass whose buffer is empty. -/
def Obligations.EndClosesAPass : Prop :=
  ∀ s : State,
    encode .endStream = 0x23000000 ∧
    (s.phase ≠ .count → s.phase ≠ .encode → exec .endStream s = .next (saying s .refusedPhase 0)) ∧
    (s.phase = .count → s.buf = [] →
      exec .endStream s = .next { s with phase := .counted, resp := some ⟨.ok, 0⟩ }) ∧
    (s.phase = .encode → s.buf = [] →
      exec .endStream s = .next { s with phase := .encoded, resp := some ⟨.ok, 0⟩ })

/-- R142 (with R122, R123): the `PUSH` that completes the symbol `y` of a count pass counts it and replies its new
count, or raises CounterOverflow when `NTOT` is `2^CW - 1` and counts nothing. -/
def Obligations.PushCountsTheSymbol : Prop :=
  ∀ (b : Byte) (s : State) (y : Symbol),
    s.phase = .count → s.w.toNat ≤ s.buf.length + 1 → y = s.buf ++ [b] →
      (s.ntot ≠ 2 ^ s.build.cw - 1 → exec (.push b) s = .next { s with
        buf := [], cnt := s.cnt.set y (s.cnt.get y + 1), ntot := s.ntot + 1,
        resp := some ⟨.sym, s.cnt.get y + 1⟩ }) ∧
      (s.ntot = 2 ^ s.build.cw - 1 → exec (.push b) s = .next (faulted s .counterOverflow y (s.cnt.get y)))

/-- R142 (with R122, R125): the `END` that flushes the short symbol of a count pass counts it and closes the pass, or
raises CounterOverflow and leaves phase FAULT. -/
def Obligations.EndCountsTheShortSymbol : Prop :=
  ∀ s : State, s.phase = .count → s.buf ≠ [] →
    (s.ntot ≠ 2 ^ s.build.cw - 1 → exec .endStream s = .next { s with
      buf := [], cnt := s.cnt.set s.buf (s.cnt.get s.buf + 1), ntot := s.ntot + 1, phase := .counted,
      resp := some ⟨.sym, s.cnt.get s.buf + 1⟩ }) ∧
    (s.ntot = 2 ^ s.build.cw - 1 →
      exec .endStream s = .next (faulted s .counterOverflow s.buf (s.cnt.get s.buf)))

/-- R203, R250 (with R122, R123): the `PUSH` that completes the symbol `y` of an encode pass looks up the key
`(y, OCC[y] + 1)`. In order: a full counter faults CounterOverflow, an absent key UnknownSymbolOccurrence, a slot
outside `[TSIZE, BASE*TSIZE)` TableRange, each with `X` and `OCC` unchanged; otherwise `X` becomes the slot. -/
def Obligations.PushEncodesTheSymbol : Prop :=
  ∀ (b : Byte) (s : State) (y : Symbol) (k : Nat),
    s.phase = .encode → s.w.toNat ≤ s.buf.length + 1 → y = s.buf ++ [b] → k = s.occ.get y + 1 →
      (s.occ.get y = 2 ^ s.build.cw - 1 →
        exec (.push b) s = .next (faulted s .counterOverflow y (s.occ.get y))) ∧
      (s.occ.get y ≠ 2 ^ s.build.cw - 1 → s.tbl.read y k = none →
        exec (.push b) s = .next (faulted s .unknownSymbolOccurrence y k)) ∧
      (∀ v, s.occ.get y ≠ 2 ^ s.build.cw - 1 → s.tbl.read y k = some v →
        (v < s.tsize ∨ s.base.toNat * s.tsize ≤ v) →
          exec (.push b) s = .next (faulted s .tableRange y k)) ∧
      (∀ v, s.occ.get y ≠ 2 ^ s.build.cw - 1 → s.tbl.read y k = some v →
        s.tsize ≤ v → v < s.base.toNat * s.tsize →
          exec (.push b) s = .next { s with
            buf := [], x := v, occ := s.occ.set y k, resp := some ⟨.sym, v⟩ })

/-- R203, R250 (with R122, R125): the same for the `END` that flushes the short symbol of an encode pass. -/
def Obligations.EndEncodesTheShortSymbol : Prop :=
  ∀ (s : State) (k : Nat), s.phase = .encode → s.buf ≠ [] → k = s.occ.get s.buf + 1 →
    (s.occ.get s.buf = 2 ^ s.build.cw - 1 →
      exec .endStream s = .next (faulted s .counterOverflow s.buf (s.occ.get s.buf))) ∧
    (s.occ.get s.buf ≠ 2 ^ s.build.cw - 1 → s.tbl.read s.buf k = none →
      exec .endStream s = .next (faulted s .unknownSymbolOccurrence s.buf k)) ∧
    (∀ v, s.occ.get s.buf ≠ 2 ^ s.build.cw - 1 → s.tbl.read s.buf k = some v →
      (v < s.tsize ∨ s.base.toNat * s.tsize ≤ v) →
        exec .endStream s = .next (faulted s .tableRange s.buf k)) ∧
    (∀ v, s.occ.get s.buf ≠ 2 ^ s.build.cw - 1 → s.tbl.read s.buf k = some v →
      s.tsize ≤ v → v < s.base.toNat * s.tsize →
        exec .endStream s = .next { s with
          buf := [], x := v, occ := s.occ.set s.buf k, phase := .encoded, resp := some ⟨.sym, v⟩ })

/-- R127: an accepted `SRCERR` discards the partial chunk and raises SourceReadError, about no symbol. -/
def Obligations.SrcerrFaultsThePass : Prop :=
  ∀ s : State,
    encode .srcerr = 0x24000000 ∧
    (s.phase ≠ .count → s.phase ≠ .encode → exec .srcerr s = .next (saying s .refusedPhase 0)) ∧
    ((s.phase = .count ∨ s.phase = .encode) →
      exec .srcerr s = .next { s with
        buf := [], errCode := some .sourceReadError, errSym := [], errIdx := 0, phase := .fault,
        resp := some ⟨.fault, 1⟩ })

/-- R143: `SYMB first, b`. No other command but `RESET` changes the operand. -/
def Obligations.SymbBuildsTheOperand : Prop :=
  ∀ (first : Bool) (b : Byte) (s : State),
    (encode (.symb first b)).toNat = 0x30 * 2 ^ 24 + first.toNat * 2 ^ 8 + b.toNat ∧
    (s.phase = .fault → exec (.symb first b) s = .next (saying s .refusedPhase 0)) ∧
    (s.phase ≠ .fault → first = true →
      exec (.symb first b) s = .next { s with sop := [b], resp := some ⟨.ok, 1⟩ }) ∧
    (s.phase ≠ .fault → first = false → s.sop.length = s.build.wmax →
      exec (.symb first b) s = .next (saying s .refusedArg 0)) ∧
    (s.phase ≠ .fault → first = false → s.sop.length ≠ s.build.wmax →
      exec (.symb first b) s = .next { s with sop := s.sop ++ [b], resp := some ⟨.ok, s.sop.length + 1⟩ }) ∧
    (∀ (i : Instr) (t : State), i ≠ .reset → (∀ f c, i ≠ .symb f c) → exec i s = .next t → t.sop = s.sop)

/-- R144: `RDCNT`. In phase IDLE every count is 0 (in the states of the invariant). -/
def Obligations.RdcntReadsTheCount : Prop :=
  ∀ s : State,
    encode .rdcnt = 0x31000000 ∧
    ((s.phase = .count ∨ s.phase = .fault) → exec .rdcnt s = .next (saying s .refusedPhase 0)) ∧
    (s.phase ≠ .count → s.phase ≠ .fault → s.sop = [] → exec .rdcnt s = .next (saying s .refusedArg 0)) ∧
    (s.phase ≠ .count → s.phase ≠ .fault → s.sop ≠ [] → exec .rdcnt s = .next (saying s .ok (s.cnt.get s.sop))) ∧
    (StateInv s → s.phase = .idle → ∀ y, s.cnt.get y = 0)

/-- R205: `RDOCC`. -/
def Obligations.RdoccReadsTheOccurrences : Prop :=
  ∀ s : State,
    encode .rdocc = 0x32000000 ∧
    (s.phase ≠ .encode → s.phase ≠ .encoded → exec .rdocc s = .next (saying s .refusedPhase 0)) ∧
    ((s.phase = .encode ∨ s.phase = .encoded) → s.sop = [] → exec .rdocc s = .next (saying s .refusedArg 0)) ∧
    ((s.phase = .encode ∨ s.phase = .encoded) → s.sop ≠ [] →
      exec .rdocc s = .next (saying s .ok (s.occ.get s.sop)))

/-! ## Frames -/

/-- Frame (R70, R224, R226, R144, R205): `NOP`, `RD`, `RDCNT` and `RDOCC` change nothing but the response port. -/
def Obligations.ReadCommandsChangeOnlyTheResponse : Prop :=
  ∀ (i : Instr) (s t : State), (i = .nop ∨ (∃ r, i = .rd r) ∨ i = .rdcnt ∨ i = .rdocc) →
    exec i s = .next t → t = { s with resp := t.resp }

/-- Frame (R121, R160, R161, R143): `SETW` changes at most `W`, `SETB` `BASE`, `SETK` `SCALE`, `SYMB` `SOP`, beside the
response port. -/
def Obligations.ConfigurationCommandsFrame : Prop :=
  ∀ s t : State,
    (∀ w, exec (.setw w) s = .next t → t = { s with w := t.w, resp := t.resp }) ∧
    (∀ b, exec (.setb b) s = .next t → t = { s with base := t.base, resp := t.resp }) ∧
    (∀ k, exec (.setk k) s = .next t → t = { s with scale := t.scale, resp := t.resp }) ∧
    (∀ first b, exec (.symb first b) s = .next t → t = { s with sop := t.sop, resp := t.resp })

/-- Frame (R123, R125, R127, R142, R203, R245): `PUSH`, `END` and `SRCERR` leave the configuration, the query operand,
`TSIZE`, the table and the ports alone; the counters of every symbol but the one completed (`BUF ++ [b]` by a `PUSH`,
`BUF` by an `END`) read as before; in phase COUNT the encoder's `X` and `OCC`, in every other phase the histogram, are
unchanged; a command that completes no symbol changes no counter and not `X`. -/
def Obligations.StreamCommandsFrame : Prop :=
  ∀ (i : Instr) (s t : State), ((∃ b, i = .push b) ∨ i = .endStream ∨ i = .srcerr) → exec i s = .next t →
    (t.build = s.build ∧ t.w = s.w ∧ t.base = s.base ∧ t.scale = s.scale ∧ t.sop = s.sop ∧ t.tsize = s.tsize ∧
      t.tbl = s.tbl ∧ t.inputs = s.inputs ∧ t.draws = s.draws) ∧
    (s.phase = .count → t.occ = s.occ ∧ t.x = s.x) ∧
    (s.phase ≠ .count → t.cnt = s.cnt ∧ t.ntot = s.ntot) ∧
    ((∀ d, t.resp ≠ some ⟨.sym, d⟩) → t.cnt = s.cnt ∧ t.ntot = s.ntot ∧ t.occ = s.occ ∧ t.x = s.x) ∧
    (s.cnt.wf = true → s.occ.wf = true → ∀ z : Symbol,
      (∀ b, i = .push b → z ≠ s.buf ++ [b]) → (i = .endStream → z ≠ s.buf) →
        t.cnt.get z = s.cnt.get z ∧ t.occ.get z = s.occ.get z)

/-- Frame (R141, R201, R225): `CBEGIN` and `EBEGIN` leave the configuration, the query operand and the error report
alone, `EBEGIN` also the histogram; no command touches the build parameters, the table, or the host's events still to
come (R21, R60). -/
def Obligations.PassOpeningAndPortsFrame : Prop :=
  ∀ s t : State,
    ((exec .cbegin s = .next t ∨ exec .ebegin s = .next t) →
      t.w = s.w ∧ t.base = s.base ∧ t.scale = s.scale ∧ t.sop = s.sop ∧
        t.errCode = s.errCode ∧ t.errSym = s.errSym ∧ t.errIdx = s.errIdx) ∧
    (exec .ebegin s = .next t → t.cnt = s.cnt ∧ t.ntot = s.ntot) ∧
    (∀ i, exec i s = .next t →
      t.build = s.build ∧ t.tbl = s.tbl ∧ t.inputs = s.inputs ∧ t.draws = s.draws)

/-- R25 to R36, the "Written by" of every register: a register changes only by the commands its rule names, the
fault-raising `PUSH`, `END` and `SRCERR` among them where it is written by a fault. -/
def Obligations.EachRegisterHasItsWriters : Prop :=
  ∀ (i : Instr) (s t : State), exec i s = .next t →
    (t.phase ≠ s.phase → i = .reset ∨ i = .cbegin ∨ i = .ebegin ∨ i = .endStream ∨ t.phase = .fault) ∧
    (t.w ≠ s.w → i = .reset ∨ ∃ w, i = .setw w) ∧
    (t.base ≠ s.base → i = .reset ∨ ∃ b, i = .setb b) ∧
    (t.scale ≠ s.scale → i = .reset ∨ ∃ k, i = .setk k) ∧
    (t.buf ≠ s.buf → i = .reset ∨ i = .cbegin ∨ i = .ebegin ∨ i = .endStream ∨ i = .srcerr ∨ ∃ b, i = .push b) ∧
    (t.cnt ≠ s.cnt → i = .reset ∨ i = .cbegin ∨ (s.phase = .count ∧ (i = .endStream ∨ ∃ b, i = .push b))) ∧
    (t.ntot ≠ s.ntot → i = .reset ∨ i = .cbegin ∨ (s.phase = .count ∧ (i = .endStream ∨ ∃ b, i = .push b))) ∧
    (t.tsize ≠ s.tsize → i = .reset ∨ i = .cbegin ∨ i = .ebegin) ∧
    (t.x ≠ s.x →
      i = .reset ∨ i = .cbegin ∨ i = .ebegin ∨ (s.phase = .encode ∧ (i = .endStream ∨ ∃ b, i = .push b))) ∧
    (t.occ ≠ s.occ →
      i = .reset ∨ i = .cbegin ∨ i = .ebegin ∨ (s.phase = .encode ∧ (i = .endStream ∨ ∃ b, i = .push b))) ∧
    (t.sop ≠ s.sop → i = .reset ∨ ∃ first b, i = .symb first b) ∧
    ((t.errCode ≠ s.errCode ∨ t.errSym ≠ s.errSym ∨ t.errIdx ≠ s.errIdx) →
      i = .reset ∨ (t.phase = .fault ∧ (i = .endStream ∨ i = .srcerr ∨ ∃ b, i = .push b)))

/-! ## Whole-machine rules -/

/-- R13, R95: every command ends in exactly one response; no command stops the machine. -/
def Obligations.EveryCommandReplies : Prop :=
  ∀ (i : Instr) (s : State), ∃ (t : State) (r : Response), exec i s = .next t ∧ t.resp = some r

/-- R40 (with R39 for `RD`): a command that the table does not list for the phase replies (REFUSED_PHASE, 0) and
changes no state; a listed one is not refused by phase and goes to a phase of its row. The phase becomes FAULT only by
a response FAULT with a fault the row lists, and `EBEGIN` stays only if refused for range. -/
def Obligations.PhaseTable : Prop :=
  ∀ (i : Instr) (s : State),
    (s.phase ∉ listedPhases i → exec i s = .next (saying s .refusedPhase 0)) ∧
    (s.phase ∈ listedPhases i → ∃ (t : State) (r : Response), exec i s = .next t ∧ t.resp = some r ∧
      r.status ≠ .refusedPhase ∧ t.phase ∈ phasesAfter i s.phase ∧
      (s.phase ≠ .fault → (t.phase = .fault ↔ r.status = .fault)) ∧
      (r.status = .fault → ∃ f ∈ faultsListed i s.phase, t.errCode = some f) ∧
      (i = .ebegin → t.phase ≠ .encode → r.status = .refusedArg))

/-- R248: a word, command or not, whose response is REFUSED_PHASE, REFUSED_ARG or ILLEGAL changed no state: the response
is there, with data 0, and nothing else differs. -/
def Obligations.RefusalsChangeNothing : Prop :=
  ∀ (w : CommandWord) (s t : State) (r : Response), runWord w s = .next t → t.resp = some r →
    r.status.isRefusal = true → r.data = 0 ∧ t = { s with resp := some r }

/-- R245, R241: a response FAULT carries the code of a kind 1, 4, 5 or 6; exactly the report, the phase and `BUF` are
written, `BUF` to []. -/
def Obligations.FaultEntryWritesTheReport : Prop :=
  ∀ (i : Instr) (s t : State) (d : Nat), exec i s = .next t → t.resp = some ⟨.fault, d⟩ →
    ∃ (f : FaultKind) (y : Symbol) (k : Nat),
      t = faulted s f y k ∧ d = f.code ∧ (d = 1 ∨ d = 4 ∨ d = 5 ∨ d = 6) ∧ (d = 1 → y = [] ∧ k = 0)

/-- R251, R252: in phase FAULT nothing but reset leaves the phase or touches the error report: every other command
changes nothing but the response port, and every step but one of `RESET` or `rst` keeps phase and report. -/
def Obligations.OnlyResetLeavesFault : Prop :=
  (∀ (i : Instr) (s t : State), s.phase = .fault → i ≠ .reset → exec i s = .next t →
    t = { s with resp := t.resp }) ∧
  (∀ s t : State, s.phase = .fault → step s = .next t →
    (∀ rest, s.inputs ≠ .rst :: rest) → (∀ rest, s.inputs ≠ .command 0x01000000 :: rest) →
      t.phase = .fault ∧ t.errCode = s.errCode ∧ t.errSym = s.errSym ∧ t.errIdx = s.errIdx)

/-- R204: nothing depends on the current `X` but the command that reads it, `RD 6`: two states that differ in `X` alone
give the same response and states that differ in `X` alone, and the same `X` once a symbol is encoded. -/
def Obligations.NextStateIgnoresX : Prop :=
  ∀ (i : Instr) (s t t' : State) (v : Nat), i ≠ .rd 6 →
    exec i s = .next t → exec i { s with x := v } = .next t' →
      t' = { t with x := t'.x } ∧
      (s.phase = .encode → (∃ d, t.resp = some ⟨.sym, d⟩) → t' = t)

/-- R66, R203: of the table a command sees only the entry at the key of the symbol it completes: tables that agree there
cannot be told apart. -/
def Obligations.OneTableReadPerSymbol : Prop :=
  ∀ (i : Instr) (s t t' : State) (tbl : Table),
    (∀ b, i = .push b →
      tbl.read (s.buf ++ [b]) (s.occ.get (s.buf ++ [b]) + 1) =
        s.tbl.read (s.buf ++ [b]) (s.occ.get (s.buf ++ [b]) + 1)) →
    (i = .endStream → tbl.read s.buf (s.occ.get s.buf + 1) = s.tbl.read s.buf (s.occ.get s.buf + 1)) →
    exec i s = .next t → exec i { s with tbl := tbl } = .next t' →
      t' = { t with tbl := tbl }

/-! ## Invariants -/

/-- The invariant holds after reset, for every legal build, whatever the host will do. -/
def Obligations.InvariantHoldsAtReset : Prop :=
  ∀ (b : Build) (inputs : List PortEvent), b.Legal → StateInv { State.resetFor b with inputs := inputs }

/-- Every step from a state that meets the invariant leads to one that meets it (R41 to R44, R8, R95). -/
def Obligations.EveryStepKeepsTheInvariant : Prop :=
  ∀ s t : State, StateInv s → step s = .next t → StateInv t

/-- R41: in every reachable state `NTOT` is the sum of `CNT` over all symbols of `Sym(WMAX)`. -/
def Obligations.FrequencyConservation : Prop :=
  ∀ (s : State) (syms : Finset Symbol), Reachable s →
    (∀ y, y ∈ syms ↔ 1 ≤ y.length ∧ y.length ≤ s.build.wmax) → s.ntot = ∑ y ∈ syms, s.cnt.get y

/-- R42: the buffer is shorter than `W`, and empty outside a pass, in every reachable state. -/
def Obligations.BufferShorterThanTheWidth : Prop :=
  ∀ s : State, Reachable s →
    s.buf.length < s.w.toNat ∧ (s.phase ≠ .count → s.phase ≠ .encode → s.buf = [])

/-- R43: the state interval, in every reachable state. -/
def Obligations.StateStaysInTheWorkingInterval : Prop :=
  ∀ s : State, Reachable s → (s.phase = .encode ∨ s.phase = .encoded) →
    (1 ≤ s.tsize → s.tsize ≤ s.x ∧ s.x < s.base.toNat * s.tsize) ∧ (s.tsize = 0 → s.x = 0)

/-- R44 (its first and last clause): the encoder results are 0 before the first `EBEGIN` of a run, and `ERRCODE` is 0
exactly outside FAULT, in every reachable state. -/
def Obligations.EncoderResultsAndReportByPhase : Prop :=
  ∀ s : State, Reachable s →
    ((s.phase = .idle ∨ s.phase = .count ∨ s.phase = .counted) →
      s.tsize = 0 ∧ s.x = 0 ∧ ∀ y, s.occ.get y = 0) ∧
    (errCodeNumber s.errCode = 0 ↔ s.phase ≠ .fault)

/-- R44 (its second clause), R33: inside an encode run the sum of the occurrence counters goes up by one with every
symbol encoded, which is every response SYM, and by nothing else; `EBEGIN` starts it at 0. -/
def Obligations.OccurrencesSumToTheSymbolsEncoded : Prop :=
  (∀ (i : Instr) (s t : State), s.occ.wf = true → (s.phase = .encode ∨ s.phase = .encoded) →
    i ≠ .reset → i ≠ .cbegin → i ≠ .ebegin → exec i s = .next t →
      t.occ.total = s.occ.total + if t.resp.map Response.status = some .sym then 1 else 0) ∧
  (∀ s t : State, exec .ebegin s = .next t → t.resp.map Response.status = some .ok → t.occ.total = 0)

/-- R8, R164, R244: no register or counter holds more than its width, in every reachable state. -/
def Obligations.RegistersFitTheirWidths : Prop :=
  ∀ s : State, Reachable s →
    s.ntot < 2 ^ s.build.cw ∧ s.errIdx < 2 ^ s.build.cw ∧ (∀ y, s.cnt.get y < 2 ^ s.build.cw) ∧
      (∀ y, s.occ.get y < 2 ^ s.build.cw) ∧ s.tsize < 2 ^ s.build.sw ∧ s.x < 2 ^ s.build.sw ∧
      s.sop.length ≤ s.build.wmax ∧ s.errSym.length ≤ s.build.wmax

/-- R61: a counter array is the function from symbol to count and nothing else: canonical arrays that read alike are
equal data. -/
def Obligations.EqualReadingsAreEqualArrays : Prop :=
  ∀ a b : Counters, a.wf = true → b.wf = true → (∀ y, a.get y = b.get y) → a = b

/-- R95: the response word of `8 + DW` bits holds the status above the data, and no datum is cut off. -/
def Obligations.ResponseWordLosesNothing : Prop :=
  ∀ (i : Instr) (s t : State) (r : Response), StateInv s → exec i s = .next t → t.resp = some r →
    (r.word s.build).toNat = r.status.code * 2 ^ dataWidth s.build + r.data ∧ r.data < 2 ^ dataWidth s.build

/-- R14: `pack(s)` is `n * 2^(8*WMAX) + b0*256^(n-1) + ... + b(n-1)`, and is injective on the symbols of at most `WMAX`
bytes together with []. -/
def Obligations.PackIsInjective : Prop :=
  ∀ b : Build,
    pack b [] = 0 ∧
    (∀ y : Symbol, pack b y = y.length * 2 ^ (8 * b.wmax) +
      ∑ i ∈ Finset.range y.length, (y.getD i 0).toNat * 256 ^ (y.length - 1 - i)) ∧
    (∀ y z : Symbol, y.length ≤ b.wmax → z.length ≤ b.wmax → pack b y = pack b z → y = z)

/-! ## Passes -/

/-- R128: the chunks of a stream concatenate to it; there are `ceil(n / w)` of them; every chunk but the last has
length `w`, the last `n mod w`, or `w` if that is 0; none is empty. -/
def Obligations.ChunksReproduceTheStream : Prop :=
  ∀ (w : Nat) (bytes : List Byte), 1 ≤ w →
    (chunks w bytes).flatten = bytes ∧ (chunks w bytes).length = (bytes.length + w - 1) / w ∧
    (∀ y ∈ (chunks w bytes).dropLast, y.length = w) ∧
    (∀ y, (chunks w bytes).getLast? = some y →
      y.length = if bytes.length % w = 0 then w else bytes.length % w)

/-- R128, R140, R145: a count pass over any byte stream that the counters can hold counts exactly the chunks of the
stream: `CNT[y]` is the number of chunks equal to `y`, `NTOT` their number, one SYM response each; the rest of the
configuration is as before. -/
def Obligations.CountPassCountsTheChunks : Prop :=
  ∀ (s : State) (bytes : List Byte), StateInv s → s.phase.mayCount = true →
    (chunks s.w.toNat bytes).length ≤ 2 ^ s.build.cw - 1 →
      ∃ t, runCommands (countPass bytes) s = .next t ∧ t.phase = .counted ∧ t.buf = [] ∧
        (∀ y, t.cnt.get y = (chunks s.w.toNat bytes).count y) ∧ t.ntot = (chunks s.w.toNat bytes).length ∧
        (symData (responses (countPass bytes) s)).length = (chunks s.w.toNat bytes).length ∧
        t.w = s.w ∧ t.base = s.base ∧ t.scale = s.scale ∧ t.sop = s.sop

/-- R145: "two byte sequences that give the same multiset of symbols give the same `CNT`", whatever was counted
before. -/
def Obligations.CountsIgnoreTheOrder : Prop :=
  ∀ (s s' t t' : State) (bytes bytes' : List Byte), StateInv s → StateInv s' → s.phase.mayCount = true →
    s'.phase.mayCount = true → s.w = s'.w → (chunks s.w.toNat bytes).Perm (chunks s'.w.toNat bytes') →
      runCommands (countPass bytes) s = .next t → runCommands (countPass bytes') s' = .next t' →
        t.phase = .counted → t'.phase = .counted → t.cnt = t'.cnt ∧ t.ntot = t'.ntot

/-- R200, R206: an encode pass whose every lookup finds a slot of the working interval replies exactly these slots, one
per chunk, in order; the residual `X` is the last (or `TSIZE` for the empty stream), `OCC[y]` the number of chunks equal
to `y`, and the histogram is as before. -/
def Obligations.EncodePassWalksTheTable : Prop :=
  ∀ (s : State) (bytes : List Byte) (slots : List Nat), StateInv s → s.phase.mayEncode = true →
    s.base.toNat * (s.scale.toNat * s.ntot) ≤ 2 ^ s.build.sw →
    slotWalk s.tbl [] (chunks s.w.toNat bytes) = some slots →
    (∀ v ∈ slots, s.scale.toNat * s.ntot ≤ v ∧ v < s.base.toNat * (s.scale.toNat * s.ntot)) →
    (∀ y, (chunks s.w.toNat bytes).count y ≤ 2 ^ s.build.cw - 1) →
      ∃ t, runCommands (encodePass bytes) s = .next t ∧ t.phase = .encoded ∧
        symData (responses (encodePass bytes) s) = slots ∧
        t.x = slots.getLast?.getD (s.scale.toNat * s.ntot) ∧ t.tsize = s.scale.toNat * s.ntot ∧
        (∀ y, t.occ.get y = (chunks s.w.toNat bytes).count y) ∧ t.cnt = s.cnt ∧ t.ntot = s.ntot

/-! ## The host's builder -/

/-- R171, R184: what the builder gives is a Spread Table for `(B, L)`, of `(B - 1) * L` entries, whatever order `tie3`
is. -/
def Obligations.BuilderGivesASpreadTable : Prop :=
  ∀ (tie3 : Symbol → Symbol → Bool) (f : Counters) (n b l : Nat) (es : List TableEntry),
    f.wf = true → 2 ≤ b → buildTable tie3 f n b l = .table es →
      SpreadTable (Table.ofEntries es).read b l ∧ es.length = (b - 1) * l

/-- R174: the keys of a built table are, for each symbol of the histogram, a contiguous range of indices from its
frequency on, and no other symbol has a key. -/
def Obligations.BuilderKeysStartAtTheFrequency : Prop :=
  ∀ (tie3 : Symbol → Symbol → Bool) (f : Counters) (n b l : Nat) (es : List TableEntry),
    f.wf = true → buildTable tie3 f n b l = .table es →
      ∀ y, ∃ m, (f.get y = 0 → m = 0) ∧
        ∀ k, ((Table.ofEntries es).read y k).isSome = true ↔ f.get y ≤ k ∧ k < f.get y + m

/-- R183: with `N` the sum of the frequencies and `L = K * N`, `K >= 1`, the builder gives `y` exactly
`(B - 1) * K * F(y)` slots, at the indices from `F(y)` on. -/
def Obligations.BuilderGivesEachSymbolItsShare : Prop :=
  ∀ (tie3 : Symbol → Symbol → Bool) (f : Counters) (b scale : Nat), f.wf = true → 2 ≤ b → 1 ≤ scale →
    ∃ es, buildTable tie3 f f.total b (scale * f.total) = .table es ∧
      ∀ y : Symbol, (es.filter (fun e => e.sym = y)).length = (b - 1) * scale * f.get y ∧
        ∀ k : Nat, ((Table.ofEntries es).read y k).isSome = true ↔
          f.get y ≤ k ∧ k < f.get y + (b - 1) * scale * f.get y

/-- R181: neither builder failure arises from what the HAU counted. -/
def Obligations.BuilderNeverFailsOnAHistogram : Prop :=
  ∀ (tie3 : Symbol → Symbol → Bool) (s : State), StateInv s → ∃ es, hostBuild tie3 s = .table es

/-- R186, table B1: the worked table, frequencies 10, 5, 2, `B = 2`, `L = 17`; `tie3` is never needed. -/
def Obligations.WorkedTableOfTheSpec : Prop :=
  ∀ tie3 : Symbol → Symbol → Bool, buildTable tie3 [([0], 10), ([1], 5), ([2], 2)] 17 2 17 = .table
    [⟨[0], 10, 17⟩, ⟨[1], 5, 18⟩, ⟨[0], 11, 19⟩, ⟨[0], 12, 20⟩, ⟨[2], 2, 21⟩, ⟨[1], 6, 22⟩, ⟨[0], 13, 23⟩,
     ⟨[0], 14, 24⟩, ⟨[1], 7, 25⟩, ⟨[0], 15, 26⟩, ⟨[0], 16, 27⟩, ⟨[1], 8, 28⟩, ⟨[0], 17, 29⟩, ⟨[2], 3, 30⟩,
     ⟨[0], 18, 31⟩, ⟨[1], 9, 32⟩, ⟨[0], 19, 33⟩]

/-- R207, `90_conflicts.md` C1: against the table the builder makes from the histogram, the `PUSH` that completes the
first occurrence of a symbol of frequency 2 or more faults with UnknownSymbolOccurrence at index 1. -/
def Obligations.RepeatedSymbolFaultsOnABuiltTable : Prop :=
  ∀ (tie3 : Symbol → Symbol → Bool) (s : State) (b : Byte) (es : List TableEntry), StateInv s → s.phase = .encode →
    hostBuild tie3 s = .table es → s.tbl = Table.ofEntries es → s.buf.length + 1 = s.w.toNat →
    2 ≤ s.cnt.get (s.buf ++ [b]) → s.occ.get (s.buf ++ [b]) = 0 →
      exec (.push b) s = .next (faulted s .unknownSymbolOccurrence (s.buf ++ [b]) 1)
end

