-- ==== Sys2Proof/Laws/Builder.lean ====
section
/-! SUPPORT. The host's builder: what a pop takes from the queue, and what an allocation gives. -/

namespace Sys2Proof.Machine

/-- A queue is empty exactly when nothing can be popped. -/
theorem popLeast_eq_none (tie3 : Symbol → Symbol → Bool) (q : List QueueMember) :
    popLeast tie3 q = none ↔ q = [] := by
  cases q with
  | nil => simp [popLeast]
  | cons m rest =>
    simp only [popLeast, reduceCtorEq, iff_false]
    split
    · simp
    · split <;> simp

/-- A pop takes one member out and leaves the others (R178 step 3a). -/
theorem popLeast_perm (tie3 : Symbol → Symbol → Bool) {q : List QueueMember} {m : QueueMember}
    {others : List QueueMember} (h : popLeast tie3 q = some (m, others)) : q.Perm (m :: others) := by
  induction q generalizing m others with
  | nil => simp [popLeast] at h
  | cons a rest ih =>
    simp only [popLeast] at h
    split at h
    · simp_all
    · rename_i b os hb
      split at h
      · simp only [Option.some.injEq, Prod.mk.injEq] at h
        obtain ⟨rfl, rfl⟩ := h
        exact ((ih hb).cons a).trans (.swap ..)
      · simp_all

/-- The value of a member is at most that of another (R177): `key / (2*freq)`, cross-multiplied. -/
def QueueMember.valueLe (a b : QueueMember) : Prop := a.key * (2 * b.freq) ≤ b.key * (2 * a.freq)

theorem QueueMember.valueLe_of_precedes {tie3 : Symbol → Symbol → Bool} {a b : QueueMember}
    (h : a.precedes tie3 b = true) : a.valueLe b := by
  simp only [QueueMember.precedes, Bool.or_eq_true, decide_eq_true_eq, Bool.and_eq_true, beq_iff_eq] at h
  rcases h with h | ⟨h, -⟩
  · exact h.le
  · exact h.le

theorem QueueMember.valueLe_of_not_precedes {tie3 : Symbol → Symbol → Bool} {a b : QueueMember}
    (h : a.precedes tie3 b = false) : b.valueLe a := by
  simp only [QueueMember.precedes, Bool.or_eq_false_iff, decide_eq_false_iff_not] at h
  exact not_lt.1 h.1

theorem QueueMember.valueLe_trans {a b c : QueueMember} (hb : 0 < b.freq) (h : a.valueLe b) (h' : b.valueLe c) :
    a.valueLe c := by
  simp only [QueueMember.valueLe] at *
  have h1 := Nat.mul_le_mul_right c.freq h
  have h2 := Nat.mul_le_mul_right a.freq h'
  refine Nat.le_of_mul_le_mul_right (c := b.freq) ?_ hb
  calc a.key * (2 * c.freq) * b.freq = a.key * (2 * b.freq) * c.freq := by ring
    _ ≤ b.key * (2 * a.freq) * c.freq := h1
    _ = b.key * (2 * c.freq) * a.freq := by ring
    _ ≤ c.key * (2 * b.freq) * a.freq := h2
    _ = c.key * (2 * a.freq) * b.freq := by ring

/-- The popped member has the least value, whatever `tie3` is (R177). -/
theorem popLeast_least (tie3 : Symbol → Symbol → Bool) {q : List QueueMember} (hq : ∀ a ∈ q, 0 < a.freq)
    {m : QueueMember} {others : List QueueMember} (h : popLeast tie3 q = some (m, others)) :
    ∀ a ∈ others, m.valueLe a := by
  induction q generalizing m others with
  | nil => simp [popLeast] at h
  | cons a rest ih =>
    have hr : ∀ c ∈ rest, 0 < c.freq := fun c hc => hq c (List.mem_cons_of_mem _ hc)
    simp only [popLeast] at h
    split at h
    · rename_i hn
      simp only [Option.some.injEq, Prod.mk.injEq] at h
      obtain ⟨rfl, rfl⟩ := h
      simp [(popLeast_eq_none _ _).1 hn]
    · rename_i b os hb
      split at h
      · rename_i hp
        simp only [Option.some.injEq, Prod.mk.injEq] at h
        obtain ⟨rfl, rfl⟩ := h
        intro c hc
        rcases List.mem_cons.1 hc with rfl | hc
        · exact QueueMember.valueLe_of_precedes hp
        · exact ih hr hb c hc
      · rename_i hp
        simp only [Option.some.injEq, Prod.mk.injEq] at h
        obtain ⟨rfl, rfl⟩ := h
        have hab := QueueMember.valueLe_of_not_precedes (Bool.eq_false_iff.2 hp)
        have hperm := popLeast_perm tie3 hb
        intro c hc
        rcases List.mem_cons.1 (hperm.mem_iff.1 hc) with rfl | hc'
        · exact hab
        · exact QueueMember.valueLe_trans (hr b (hperm.mem_iff.2 List.mem_cons_self)) hab (ih hr hb c hc')

/-- An allocation from a queue that is not empty never fails (R181). -/
theorem allocate_ne_failed (tie3 : Symbol → Symbol → Bool) (n : Nat) {count x : Nat} {q : List QueueMember}
    (h : q ≠ [] ∨ count = 0) : ∃ es, allocate tie3 n count x q = .table es := by
  induction count generalizing x q with
  | zero => exact ⟨[], rfl⟩
  | succ count ih =>
    have hq : q ≠ [] := h.resolve_right (by simp)
    cases hp : popLeast tie3 q with
    | none => exact absurd ((popLeast_eq_none _ _).1 hp) hq
    | some r =>
      obtain ⟨m, others⟩ := r
      obtain ⟨es, he⟩ := ih (x := x + 1) (q := m.advance n :: others) (.inl (by simp))
      exact ⟨⟨m.sym, m.xs, x⟩ :: es, by simp [allocate, hp, he, BuildResult.cons]⟩

/-- An allocation that gives a table popped a member for its first entry and went on (R178). -/
theorem allocate_succ (tie3 : Symbol → Symbol → Bool) (n : Nat) {count x : Nat} {q : List QueueMember}
    {es : List TableEntry} (h : allocate tie3 n (count + 1) x q = .table es) :
    ∃ m others es', popLeast tie3 q = some (m, others) ∧ es = ⟨m.sym, m.xs, x⟩ :: es' ∧
      allocate tie3 n count (x + 1) (m.advance n :: others) = .table es' := by
  simp only [allocate] at h
  split at h
  · cases h
  · rename_i m others hp
    cases he : allocate tie3 n count (x + 1) (m.advance n :: others) with
    | failed f => rw [he] at h; cases h
    | table es' =>
      rw [he] at h
      injection h with h
      exact ⟨m, others, es', hp, h.symm, he⟩

/-- The slots are given in strictly increasing order, one each (R178). -/
theorem allocate_slots (tie3 : Symbol → Symbol → Bool) (n : Nat) {count x : Nat} {q : List QueueMember}
    {es : List TableEntry} (h : allocate tie3 n count x q = .table es) :
    es.map TableEntry.slot = List.range' x count := by
  induction count generalizing x q es with
  | zero => injection h with h; simp [← h]
  | succ count ih =>
    obtain ⟨m, others, es', -, rfl, he⟩ := allocate_succ tie3 n h
    simp [List.range'_succ, ih he]

end Sys2Proof.Machine
end

