-- ==== Sys2Proof/Laws/Decode.lean ====
section
/-! SUPPORT. The opcode table: its rows do not overlap, so a word that matches a row decodes to that row's command; and
the fields of the words the encoder writes. -/

namespace Sys2Proof

/-- Two rows that one word matches agree on the bits both fix. -/
theorem OpcodeRow.agree {a b : OpcodeRow} {w : CommandWord} (ha : a.matchesWord w = true)
    (hb : b.matchesWord w = true) : a.pattern &&& b.mask = b.pattern &&& a.mask := by
  simp only [OpcodeRow.matchesWord, beq_iff_eq] at ha hb
  rw [← ha, ← hb, BitVec.and_assoc, BitVec.and_assoc, BitVec.and_comm a.mask]

/-- Different rows differ in a bit both fix. -/
theorem opcodeTable_rows_differ :
    opcodeTable.Pairwise (fun a b => a.pattern &&& b.mask ≠ b.pattern &&& a.mask) := by
  decide

/-- The search for a row finds the one the word matches. -/
theorem find_row {rows : List OpcodeRow}
    (hd : rows.Pairwise (fun a b => a.pattern &&& b.mask ≠ b.pattern &&& a.mask)) {r : OpcodeRow} (hr : r ∈ rows)
    {w : CommandWord} (h : r.matchesWord w = true) : rows.find? (fun a => a.matchesWord w) = some r := by
  induction rows with
  | nil => simp at hr
  | cons a rest ih =>
    rw [List.pairwise_cons] at hd
    rcases List.mem_cons.1 hr with rfl | hr
    · simp [h]
    · have ha : a.matchesWord w = false := by
        by_contra hc
        exact hd.1 r hr (OpcodeRow.agree (by simpa using hc) h)
      simp [ha, ih hd.2 hr]

/-- A word that matches a row is that row's command (R98). -/
theorem decode_of_row {r : OpcodeRow} (hr : r ∈ opcodeTable) {w : CommandWord} (h : r.matchesWord w = true) :
    decode w = some (r.command w) := by
  simp [decode, find_row opcodeTable_rows_differ hr h]

/-- A word that decodes matches a row, whose command it is. -/
theorem row_of_decode {w : CommandWord} {i : Instr} (h : decode w = some i) :
    ∃ r ∈ opcodeTable, r.matchesWord w = true ∧ i = r.command w := by
  simp only [decode, Option.map_eq_some_iff] at h
  obtain ⟨r, hr, rfl⟩ := h
  exact ⟨r, List.mem_of_find?_eq_some hr, by simpa using List.find?_some hr, rfl⟩

/-! ### The words as numbers (R94) -/

theorem toNat_append_eq {n m : Nat} (x : BitVec n) (y : BitVec m) :
    (x ++ y).toNat = x.toNat * 2 ^ m + y.toNat := by
  rw [BitVec.toNat_append, ← Nat.shiftLeft_add_eq_or_of_lt y.isLt, Nat.shiftLeft_eq]

theorem wordZ_toNat (op : Byte) : (wordZ op).toNat = op.toNat * 2 ^ 24 :=
  (toNat_append_eq op (0 : BitVec 24)).trans (by simp)

theorem wordI_toNat (op : Byte) (v : Imm24) : (wordI op v).toNat = op.toNat * 2 ^ 24 + v.toNat :=
  toNat_append_eq op v

theorem wordB_toNat (op : Byte) (f : Bool) (b : Byte) :
    (wordB op f b).toNat = op.toNat * 2 ^ 24 + f.toNat * 2 ^ 8 + b.toNat := by
  have h : (wordB op f b).toNat = _ := toNat_append_eq (op ++ (0 : BitVec 15) ++ BitVec.ofBool f) b
  have h2 := toNat_append_eq (op ++ (0 : BitVec 15)) (BitVec.ofBool f)
  have h3 := toNat_append_eq op (0 : BitVec 15)
  have hf : (BitVec.ofBool f).toNat = f.toNat := by cases f <;> rfl
  have h0 : (0 : BitVec 15).toNat = 0 := rfl
  rw [h3, h0, hf] at h2
  rw [h, h2]
  ring

/-! ### The fields of an encoded word -/

@[simp] theorem wordB_imm8 (op : Byte) (f : Bool) (b : Byte) : (wordB op f b).imm8 = b := by
  apply BitVec.eq_of_toNat_eq
  simp only [CommandWord.imm8, BitVec.extractLsb'_toNat, wordB_toNat]
  have := b.isLt
  simp
  omega

@[simp] theorem wordB_flag (op : Byte) (f : Bool) (b : Byte) : (wordB op f b).flag = f := by
  have h : (wordB op f b).toNat / 2 ^ 8 % 2 = f.toNat := by
    rw [wordB_toNat]; have := b.isLt; have := f.toNat_lt; omega
  rw [CommandWord.flag, BitVec.getLsbD, Nat.testBit_eq_decide_div_mod_eq, h]
  cases f <;> rfl

@[simp] theorem wordI_imm24 (op : Byte) (v : Imm24) : (wordI op v).imm24 = v := by
  apply BitVec.eq_of_toNat_eq
  simp only [CommandWord.imm24, BitVec.extractLsb'_toNat, wordI_toNat]
  have := v.isLt
  simp
  omega

/-- The mask of format I keeps the opcode. -/
theorem wordI_and (op : Byte) (v : Imm24) : wordI op v &&& 0xFF000000#32 = wordI op 0 := by
  have : (op ++ v) &&& (0xFF#8 ++ 0#24) = op ++ 0#24 := by
    rw [BitVec.and_append]; congr 1
    · exact BitVec.and_allOnes
    · exact BitVec.and_zero
  exact this

/-- The mask of format B keeps all but the byte operand. -/
theorem wordB_and (op : Byte) (f : Bool) (b : Byte) : wordB op f b &&& 0xFFFFFF00#32 = wordB op f 0 := by
  have : ((op ++ (0 : BitVec 15) ++ BitVec.ofBool f) ++ b) &&& (0xFFFFFF#24 ++ 0#8) =
      (op ++ (0 : BitVec 15) ++ BitVec.ofBool f) ++ 0#8 := by
    rw [BitVec.and_append]; congr 1
    · exact BitVec.and_allOnes
    · exact BitVec.and_zero
  exact this

/-- The mask of `SYMB` keeps neither the flag nor the byte operand. -/
theorem wordB_and_flag (op : Byte) (f : Bool) (b : Byte) : wordB op f b &&& 0xFFFFFE00#32 = wordB op false 0 := by
  have : ((op ++ (0 : BitVec 15)) ++ BitVec.ofBool f ++ b) &&& (0x7FFFFF#23 ++ 0#1 ++ 0#8) =
      (op ++ (0 : BitVec 15)) ++ 0#1 ++ 0#8 := by
    rw [BitVec.and_append, BitVec.and_append]; congr 1
    · congr 1
      · exact BitVec.and_allOnes
      · exact BitVec.and_zero
    · exact BitVec.and_zero
  exact this
/-! ### Well-formed words -/

theorem opcode_of_toNat {w : CommandWord} {op rest : Nat} (h : w.toNat = op * 2 ^ 24 + rest) (hr : rest < 2 ^ 24) :
    (w.extractLsb' 24 8).toNat = op := by
  simp only [BitVec.extractLsb'_toNat, h, Nat.shiftRight_eq_div_pow]
  omega

theorem field_eq_zero {w : CommandWord} {lo n : Nat} (h : w.toNat / 2 ^ lo % 2 ^ n = 0) : w.extractLsb' lo n = 0 := by
  apply BitVec.eq_of_toNat_eq
  rw [BitVec.extractLsb'_toNat, Nat.shiftRight_eq_div_pow, h]
  rfl

theorem wordZ_wellFormed {op : Byte} (h : commandFormat op.toNat = some .z) :
    CommandWord.wellFormed (wordZ op) = true := by
  have ho : ((wordZ op).extractLsb' 24 8).toNat = op.toNat :=
    opcode_of_toNat (rest := 0) (by rw [wordZ_toNat, Nat.add_zero]) (by decide)
  have hz : (wordZ op).extractLsb' 0 24 = 0 :=
    field_eq_zero (by rw [wordZ_toNat]; omega)
  simp only [CommandWord.wellFormed, ho, h, hz]
  rfl

theorem wordI_wellFormed {op : Byte} (h : commandFormat op.toNat = some .i) (v : Imm24) :
    CommandWord.wellFormed (wordI op v) = true := by
  have ho : ((wordI op v).extractLsb' 24 8).toNat = op.toNat := opcode_of_toNat (wordI_toNat op v) v.isLt
  simp only [CommandWord.wellFormed, ho, h]

theorem wordB_wellFormed {op : Byte} {flag f : Bool} (h : commandFormat op.toNat = some (.b flag))
    (hf : f = true → flag = true) (b : Byte) : CommandWord.wellFormed (wordB op f b) = true := by
  have hb := b.isLt
  have hfl := f.toNat_lt
  have ho : ((wordB op f b).extractLsb' 24 8).toNat = op.toNat :=
    opcode_of_toNat (rest := f.toNat * 2 ^ 8 + b.toNat) (by rw [wordB_toNat]; omega) (by omega)
  have hz : (wordB op f b).extractLsb' 9 15 = 0 :=
    field_eq_zero (by rw [wordB_toNat]; omega)
  have hg : flag || (wordB op f b).extractLsb' 8 1 == 0 := by
    cases f with
    | true => simp [hf rfl]
    | false =>
      have : (wordB op false b).extractLsb' 8 1 = 0 :=
        field_eq_zero (by rw [wordB_toNat]; simp only [Bool.toNat_false]; omega)
      simp [this]
  simp only [CommandWord.wellFormed, ho, h, hz, hg]
  rfl

end Sys2Proof
end

