-- ==== Sys2Proof/Laws/State.lean ====
section
/-! SUPPORT. One lemma per field per named update of the state, so that no later proof unfolds a record update. -/

namespace Sys2Proof.Machine

variable (s : State)

/-! ### `State.answer` -/

@[simp] theorem State.answer_build (st : Status) (d : Nat) : (s.answer st d).build = s.build := rfl
@[simp] theorem State.answer_phase (st : Status) (d : Nat) : (s.answer st d).phase = s.phase := rfl
@[simp] theorem State.answer_w (st : Status) (d : Nat) : (s.answer st d).w = s.w := rfl
@[simp] theorem State.answer_base (st : Status) (d : Nat) : (s.answer st d).base = s.base := rfl
@[simp] theorem State.answer_scale (st : Status) (d : Nat) : (s.answer st d).scale = s.scale := rfl
@[simp] theorem State.answer_buf (st : Status) (d : Nat) : (s.answer st d).buf = s.buf := rfl
@[simp] theorem State.answer_cnt (st : Status) (d : Nat) : (s.answer st d).cnt = s.cnt := rfl
@[simp] theorem State.answer_ntot (st : Status) (d : Nat) : (s.answer st d).ntot = s.ntot := rfl
@[simp] theorem State.answer_tsize (st : Status) (d : Nat) : (s.answer st d).tsize = s.tsize := rfl
@[simp] theorem State.answer_x (st : Status) (d : Nat) : (s.answer st d).x = s.x := rfl
@[simp] theorem State.answer_occ (st : Status) (d : Nat) : (s.answer st d).occ = s.occ := rfl
@[simp] theorem State.answer_sop (st : Status) (d : Nat) : (s.answer st d).sop = s.sop := rfl
@[simp] theorem State.answer_errCode (st : Status) (d : Nat) : (s.answer st d).errCode = s.errCode := rfl
@[simp] theorem State.answer_errSym (st : Status) (d : Nat) : (s.answer st d).errSym = s.errSym := rfl
@[simp] theorem State.answer_errIdx (st : Status) (d : Nat) : (s.answer st d).errIdx = s.errIdx := rfl
@[simp] theorem State.answer_tbl (st : Status) (d : Nat) : (s.answer st d).tbl = s.tbl := rfl
@[simp] theorem State.answer_inputs (st : Status) (d : Nat) : (s.answer st d).inputs = s.inputs := rfl
@[simp] theorem State.answer_resp (st : Status) (d : Nat) : (s.answer st d).resp = some ⟨st, d⟩ := rfl
@[simp] theorem State.answer_draws (st : Status) (d : Nat) : (s.answer st d).draws = s.draws := rfl

/-! ### `State.setPhase` -/

@[simp] theorem State.setPhase_build (p : Phase) : (s.setPhase p).build = s.build := rfl
@[simp] theorem State.setPhase_phase (p : Phase) : (s.setPhase p).phase = p := rfl
@[simp] theorem State.setPhase_w (p : Phase) : (s.setPhase p).w = s.w := rfl
@[simp] theorem State.setPhase_base (p : Phase) : (s.setPhase p).base = s.base := rfl
@[simp] theorem State.setPhase_scale (p : Phase) : (s.setPhase p).scale = s.scale := rfl
@[simp] theorem State.setPhase_buf (p : Phase) : (s.setPhase p).buf = s.buf := rfl
@[simp] theorem State.setPhase_cnt (p : Phase) : (s.setPhase p).cnt = s.cnt := rfl
@[simp] theorem State.setPhase_ntot (p : Phase) : (s.setPhase p).ntot = s.ntot := rfl
@[simp] theorem State.setPhase_tsize (p : Phase) : (s.setPhase p).tsize = s.tsize := rfl
@[simp] theorem State.setPhase_x (p : Phase) : (s.setPhase p).x = s.x := rfl
@[simp] theorem State.setPhase_occ (p : Phase) : (s.setPhase p).occ = s.occ := rfl
@[simp] theorem State.setPhase_sop (p : Phase) : (s.setPhase p).sop = s.sop := rfl
@[simp] theorem State.setPhase_errCode (p : Phase) : (s.setPhase p).errCode = s.errCode := rfl
@[simp] theorem State.setPhase_errSym (p : Phase) : (s.setPhase p).errSym = s.errSym := rfl
@[simp] theorem State.setPhase_errIdx (p : Phase) : (s.setPhase p).errIdx = s.errIdx := rfl
@[simp] theorem State.setPhase_tbl (p : Phase) : (s.setPhase p).tbl = s.tbl := rfl
@[simp] theorem State.setPhase_inputs (p : Phase) : (s.setPhase p).inputs = s.inputs := rfl
@[simp] theorem State.setPhase_resp (p : Phase) : (s.setPhase p).resp = s.resp := rfl
@[simp] theorem State.setPhase_draws (p : Phase) : (s.setPhase p).draws = s.draws := rfl

/-! ### `State.setBuf` -/

@[simp] theorem State.setBuf_build (b : Symbol) : (s.setBuf b).build = s.build := rfl
@[simp] theorem State.setBuf_phase (b : Symbol) : (s.setBuf b).phase = s.phase := rfl
@[simp] theorem State.setBuf_w (b : Symbol) : (s.setBuf b).w = s.w := rfl
@[simp] theorem State.setBuf_base (b : Symbol) : (s.setBuf b).base = s.base := rfl
@[simp] theorem State.setBuf_scale (b : Symbol) : (s.setBuf b).scale = s.scale := rfl
@[simp] theorem State.setBuf_buf (b : Symbol) : (s.setBuf b).buf = b := rfl
@[simp] theorem State.setBuf_cnt (b : Symbol) : (s.setBuf b).cnt = s.cnt := rfl
@[simp] theorem State.setBuf_ntot (b : Symbol) : (s.setBuf b).ntot = s.ntot := rfl
@[simp] theorem State.setBuf_tsize (b : Symbol) : (s.setBuf b).tsize = s.tsize := rfl
@[simp] theorem State.setBuf_x (b : Symbol) : (s.setBuf b).x = s.x := rfl
@[simp] theorem State.setBuf_occ (b : Symbol) : (s.setBuf b).occ = s.occ := rfl
@[simp] theorem State.setBuf_sop (b : Symbol) : (s.setBuf b).sop = s.sop := rfl
@[simp] theorem State.setBuf_errCode (b : Symbol) : (s.setBuf b).errCode = s.errCode := rfl
@[simp] theorem State.setBuf_errSym (b : Symbol) : (s.setBuf b).errSym = s.errSym := rfl
@[simp] theorem State.setBuf_errIdx (b : Symbol) : (s.setBuf b).errIdx = s.errIdx := rfl
@[simp] theorem State.setBuf_tbl (b : Symbol) : (s.setBuf b).tbl = s.tbl := rfl
@[simp] theorem State.setBuf_inputs (b : Symbol) : (s.setBuf b).inputs = s.inputs := rfl
@[simp] theorem State.setBuf_resp (b : Symbol) : (s.setBuf b).resp = s.resp := rfl
@[simp] theorem State.setBuf_draws (b : Symbol) : (s.setBuf b).draws = s.draws := rfl

/-! ### `State.setSop` -/

@[simp] theorem State.setSop_build (y : Symbol) : (s.setSop y).build = s.build := rfl
@[simp] theorem State.setSop_phase (y : Symbol) : (s.setSop y).phase = s.phase := rfl
@[simp] theorem State.setSop_w (y : Symbol) : (s.setSop y).w = s.w := rfl
@[simp] theorem State.setSop_base (y : Symbol) : (s.setSop y).base = s.base := rfl
@[simp] theorem State.setSop_scale (y : Symbol) : (s.setSop y).scale = s.scale := rfl
@[simp] theorem State.setSop_buf (y : Symbol) : (s.setSop y).buf = s.buf := rfl
@[simp] theorem State.setSop_cnt (y : Symbol) : (s.setSop y).cnt = s.cnt := rfl
@[simp] theorem State.setSop_ntot (y : Symbol) : (s.setSop y).ntot = s.ntot := rfl
@[simp] theorem State.setSop_tsize (y : Symbol) : (s.setSop y).tsize = s.tsize := rfl
@[simp] theorem State.setSop_x (y : Symbol) : (s.setSop y).x = s.x := rfl
@[simp] theorem State.setSop_occ (y : Symbol) : (s.setSop y).occ = s.occ := rfl
@[simp] theorem State.setSop_sop (y : Symbol) : (s.setSop y).sop = y := rfl
@[simp] theorem State.setSop_errCode (y : Symbol) : (s.setSop y).errCode = s.errCode := rfl
@[simp] theorem State.setSop_errSym (y : Symbol) : (s.setSop y).errSym = s.errSym := rfl
@[simp] theorem State.setSop_errIdx (y : Symbol) : (s.setSop y).errIdx = s.errIdx := rfl
@[simp] theorem State.setSop_tbl (y : Symbol) : (s.setSop y).tbl = s.tbl := rfl
@[simp] theorem State.setSop_inputs (y : Symbol) : (s.setSop y).inputs = s.inputs := rfl
@[simp] theorem State.setSop_resp (y : Symbol) : (s.setSop y).resp = s.resp := rfl
@[simp] theorem State.setSop_draws (y : Symbol) : (s.setSop y).draws = s.draws := rfl

/-! ### `State.setW` -/

@[simp] theorem State.setW_build (v : BitVec 8) : (s.setW v).build = s.build := rfl
@[simp] theorem State.setW_phase (v : BitVec 8) : (s.setW v).phase = s.phase := rfl
@[simp] theorem State.setW_w (v : BitVec 8) : (s.setW v).w = v := rfl
@[simp] theorem State.setW_base (v : BitVec 8) : (s.setW v).base = s.base := rfl
@[simp] theorem State.setW_scale (v : BitVec 8) : (s.setW v).scale = s.scale := rfl
@[simp] theorem State.setW_buf (v : BitVec 8) : (s.setW v).buf = s.buf := rfl
@[simp] theorem State.setW_cnt (v : BitVec 8) : (s.setW v).cnt = s.cnt := rfl
@[simp] theorem State.setW_ntot (v : BitVec 8) : (s.setW v).ntot = s.ntot := rfl
@[simp] theorem State.setW_tsize (v : BitVec 8) : (s.setW v).tsize = s.tsize := rfl
@[simp] theorem State.setW_x (v : BitVec 8) : (s.setW v).x = s.x := rfl
@[simp] theorem State.setW_occ (v : BitVec 8) : (s.setW v).occ = s.occ := rfl
@[simp] theorem State.setW_sop (v : BitVec 8) : (s.setW v).sop = s.sop := rfl
@[simp] theorem State.setW_errCode (v : BitVec 8) : (s.setW v).errCode = s.errCode := rfl
@[simp] theorem State.setW_errSym (v : BitVec 8) : (s.setW v).errSym = s.errSym := rfl
@[simp] theorem State.setW_errIdx (v : BitVec 8) : (s.setW v).errIdx = s.errIdx := rfl
@[simp] theorem State.setW_tbl (v : BitVec 8) : (s.setW v).tbl = s.tbl := rfl
@[simp] theorem State.setW_inputs (v : BitVec 8) : (s.setW v).inputs = s.inputs := rfl
@[simp] theorem State.setW_resp (v : BitVec 8) : (s.setW v).resp = s.resp := rfl
@[simp] theorem State.setW_draws (v : BitVec 8) : (s.setW v).draws = s.draws := rfl

/-! ### `State.setBase` -/

@[simp] theorem State.setBase_build (v : BitVec 24) : (s.setBase v).build = s.build := rfl
@[simp] theorem State.setBase_phase (v : BitVec 24) : (s.setBase v).phase = s.phase := rfl
@[simp] theorem State.setBase_w (v : BitVec 24) : (s.setBase v).w = s.w := rfl
@[simp] theorem State.setBase_base (v : BitVec 24) : (s.setBase v).base = v := rfl
@[simp] theorem State.setBase_scale (v : BitVec 24) : (s.setBase v).scale = s.scale := rfl
@[simp] theorem State.setBase_buf (v : BitVec 24) : (s.setBase v).buf = s.buf := rfl
@[simp] theorem State.setBase_cnt (v : BitVec 24) : (s.setBase v).cnt = s.cnt := rfl
@[simp] theorem State.setBase_ntot (v : BitVec 24) : (s.setBase v).ntot = s.ntot := rfl
@[simp] theorem State.setBase_tsize (v : BitVec 24) : (s.setBase v).tsize = s.tsize := rfl
@[simp] theorem State.setBase_x (v : BitVec 24) : (s.setBase v).x = s.x := rfl
@[simp] theorem State.setBase_occ (v : BitVec 24) : (s.setBase v).occ = s.occ := rfl
@[simp] theorem State.setBase_sop (v : BitVec 24) : (s.setBase v).sop = s.sop := rfl
@[simp] theorem State.setBase_errCode (v : BitVec 24) : (s.setBase v).errCode = s.errCode := rfl
@[simp] theorem State.setBase_errSym (v : BitVec 24) : (s.setBase v).errSym = s.errSym := rfl
@[simp] theorem State.setBase_errIdx (v : BitVec 24) : (s.setBase v).errIdx = s.errIdx := rfl
@[simp] theorem State.setBase_tbl (v : BitVec 24) : (s.setBase v).tbl = s.tbl := rfl
@[simp] theorem State.setBase_inputs (v : BitVec 24) : (s.setBase v).inputs = s.inputs := rfl
@[simp] theorem State.setBase_resp (v : BitVec 24) : (s.setBase v).resp = s.resp := rfl
@[simp] theorem State.setBase_draws (v : BitVec 24) : (s.setBase v).draws = s.draws := rfl

/-! ### `State.setScale` -/

@[simp] theorem State.setScale_build (v : BitVec 24) : (s.setScale v).build = s.build := rfl
@[simp] theorem State.setScale_phase (v : BitVec 24) : (s.setScale v).phase = s.phase := rfl
@[simp] theorem State.setScale_w (v : BitVec 24) : (s.setScale v).w = s.w := rfl
@[simp] theorem State.setScale_base (v : BitVec 24) : (s.setScale v).base = s.base := rfl
@[simp] theorem State.setScale_scale (v : BitVec 24) : (s.setScale v).scale = v := rfl
@[simp] theorem State.setScale_buf (v : BitVec 24) : (s.setScale v).buf = s.buf := rfl
@[simp] theorem State.setScale_cnt (v : BitVec 24) : (s.setScale v).cnt = s.cnt := rfl
@[simp] theorem State.setScale_ntot (v : BitVec 24) : (s.setScale v).ntot = s.ntot := rfl
@[simp] theorem State.setScale_tsize (v : BitVec 24) : (s.setScale v).tsize = s.tsize := rfl
@[simp] theorem State.setScale_x (v : BitVec 24) : (s.setScale v).x = s.x := rfl
@[simp] theorem State.setScale_occ (v : BitVec 24) : (s.setScale v).occ = s.occ := rfl
@[simp] theorem State.setScale_sop (v : BitVec 24) : (s.setScale v).sop = s.sop := rfl
@[simp] theorem State.setScale_errCode (v : BitVec 24) : (s.setScale v).errCode = s.errCode := rfl
@[simp] theorem State.setScale_errSym (v : BitVec 24) : (s.setScale v).errSym = s.errSym := rfl
@[simp] theorem State.setScale_errIdx (v : BitVec 24) : (s.setScale v).errIdx = s.errIdx := rfl
@[simp] theorem State.setScale_tbl (v : BitVec 24) : (s.setScale v).tbl = s.tbl := rfl
@[simp] theorem State.setScale_inputs (v : BitVec 24) : (s.setScale v).inputs = s.inputs := rfl
@[simp] theorem State.setScale_resp (v : BitVec 24) : (s.setScale v).resp = s.resp := rfl
@[simp] theorem State.setScale_draws (v : BitVec 24) : (s.setScale v).draws = s.draws := rfl

/-! ### `State.countUp` -/

@[simp] theorem State.countUp_build (y : Symbol) (n : Nat) : (s.countUp y n).build = s.build := rfl
@[simp] theorem State.countUp_phase (y : Symbol) (n : Nat) : (s.countUp y n).phase = s.phase := rfl
@[simp] theorem State.countUp_w (y : Symbol) (n : Nat) : (s.countUp y n).w = s.w := rfl
@[simp] theorem State.countUp_base (y : Symbol) (n : Nat) : (s.countUp y n).base = s.base := rfl
@[simp] theorem State.countUp_scale (y : Symbol) (n : Nat) : (s.countUp y n).scale = s.scale := rfl
@[simp] theorem State.countUp_buf (y : Symbol) (n : Nat) : (s.countUp y n).buf = s.buf := rfl
@[simp] theorem State.countUp_cnt (y : Symbol) (n : Nat) : (s.countUp y n).cnt = Counters.set s.cnt y n := rfl
@[simp] theorem State.countUp_ntot (y : Symbol) (n : Nat) : (s.countUp y n).ntot = s.ntot + 1 := rfl
@[simp] theorem State.countUp_tsize (y : Symbol) (n : Nat) : (s.countUp y n).tsize = s.tsize := rfl
@[simp] theorem State.countUp_x (y : Symbol) (n : Nat) : (s.countUp y n).x = s.x := rfl
@[simp] theorem State.countUp_occ (y : Symbol) (n : Nat) : (s.countUp y n).occ = s.occ := rfl
@[simp] theorem State.countUp_sop (y : Symbol) (n : Nat) : (s.countUp y n).sop = s.sop := rfl
@[simp] theorem State.countUp_errCode (y : Symbol) (n : Nat) : (s.countUp y n).errCode = s.errCode := rfl
@[simp] theorem State.countUp_errSym (y : Symbol) (n : Nat) : (s.countUp y n).errSym = s.errSym := rfl
@[simp] theorem State.countUp_errIdx (y : Symbol) (n : Nat) : (s.countUp y n).errIdx = s.errIdx := rfl
@[simp] theorem State.countUp_tbl (y : Symbol) (n : Nat) : (s.countUp y n).tbl = s.tbl := rfl
@[simp] theorem State.countUp_inputs (y : Symbol) (n : Nat) : (s.countUp y n).inputs = s.inputs := rfl
@[simp] theorem State.countUp_resp (y : Symbol) (n : Nat) : (s.countUp y n).resp = s.resp := rfl
@[simp] theorem State.countUp_draws (y : Symbol) (n : Nat) : (s.countUp y n).draws = s.draws := rfl

/-! ### `State.moveTo` -/

@[simp] theorem State.moveTo_build (v : Nat) (y : Symbol) (k : Nat) : (s.moveTo v y k).build = s.build := rfl
@[simp] theorem State.moveTo_phase (v : Nat) (y : Symbol) (k : Nat) : (s.moveTo v y k).phase = s.phase := rfl
@[simp] theorem State.moveTo_w (v : Nat) (y : Symbol) (k : Nat) : (s.moveTo v y k).w = s.w := rfl
@[simp] theorem State.moveTo_base (v : Nat) (y : Symbol) (k : Nat) : (s.moveTo v y k).base = s.base := rfl
@[simp] theorem State.moveTo_scale (v : Nat) (y : Symbol) (k : Nat) : (s.moveTo v y k).scale = s.scale := rfl
@[simp] theorem State.moveTo_buf (v : Nat) (y : Symbol) (k : Nat) : (s.moveTo v y k).buf = s.buf := rfl
@[simp] theorem State.moveTo_cnt (v : Nat) (y : Symbol) (k : Nat) : (s.moveTo v y k).cnt = s.cnt := rfl
@[simp] theorem State.moveTo_ntot (v : Nat) (y : Symbol) (k : Nat) : (s.moveTo v y k).ntot = s.ntot := rfl
@[simp] theorem State.moveTo_tsize (v : Nat) (y : Symbol) (k : Nat) : (s.moveTo v y k).tsize = s.tsize := rfl
@[simp] theorem State.moveTo_x (v : Nat) (y : Symbol) (k : Nat) : (s.moveTo v y k).x = v := rfl
@[simp] theorem State.moveTo_occ (v : Nat) (y : Symbol) (k : Nat) :
    (s.moveTo v y k).occ = Counters.set s.occ y k := rfl
@[simp] theorem State.moveTo_sop (v : Nat) (y : Symbol) (k : Nat) : (s.moveTo v y k).sop = s.sop := rfl
@[simp] theorem State.moveTo_errCode (v : Nat) (y : Symbol) (k : Nat) : (s.moveTo v y k).errCode = s.errCode := rfl
@[simp] theorem State.moveTo_errSym (v : Nat) (y : Symbol) (k : Nat) : (s.moveTo v y k).errSym = s.errSym := rfl
@[simp] theorem State.moveTo_errIdx (v : Nat) (y : Symbol) (k : Nat) : (s.moveTo v y k).errIdx = s.errIdx := rfl
@[simp] theorem State.moveTo_tbl (v : Nat) (y : Symbol) (k : Nat) : (s.moveTo v y k).tbl = s.tbl := rfl
@[simp] theorem State.moveTo_inputs (v : Nat) (y : Symbol) (k : Nat) : (s.moveTo v y k).inputs = s.inputs := rfl
@[simp] theorem State.moveTo_resp (v : Nat) (y : Symbol) (k : Nat) : (s.moveTo v y k).resp = s.resp := rfl
@[simp] theorem State.moveTo_draws (v : Nat) (y : Symbol) (k : Nat) : (s.moveTo v y k).draws = s.draws := rfl

/-! ### `State.openCount` -/

@[simp] theorem State.openCount_build : (s.openCount).build = s.build := rfl
@[simp] theorem State.openCount_phase : (s.openCount).phase = .count := rfl
@[simp] theorem State.openCount_w : (s.openCount).w = s.w := rfl
@[simp] theorem State.openCount_base : (s.openCount).base = s.base := rfl
@[simp] theorem State.openCount_scale : (s.openCount).scale = s.scale := rfl
@[simp] theorem State.openCount_buf : (s.openCount).buf = [] := rfl
@[simp] theorem State.openCount_cnt : (s.openCount).cnt = [] := rfl
@[simp] theorem State.openCount_ntot : (s.openCount).ntot = 0 := rfl
@[simp] theorem State.openCount_tsize : (s.openCount).tsize = 0 := rfl
@[simp] theorem State.openCount_x : (s.openCount).x = 0 := rfl
@[simp] theorem State.openCount_occ : (s.openCount).occ = [] := rfl
@[simp] theorem State.openCount_sop : (s.openCount).sop = s.sop := rfl
@[simp] theorem State.openCount_errCode : (s.openCount).errCode = s.errCode := rfl
@[simp] theorem State.openCount_errSym : (s.openCount).errSym = s.errSym := rfl
@[simp] theorem State.openCount_errIdx : (s.openCount).errIdx = s.errIdx := rfl
@[simp] theorem State.openCount_tbl : (s.openCount).tbl = s.tbl := rfl
@[simp] theorem State.openCount_inputs : (s.openCount).inputs = s.inputs := rfl
@[simp] theorem State.openCount_resp : (s.openCount).resp = s.resp := rfl
@[simp] theorem State.openCount_draws : (s.openCount).draws = s.draws := rfl

/-! ### `State.openEncode` -/

@[simp] theorem State.openEncode_build (l : Nat) : (s.openEncode l).build = s.build := rfl
@[simp] theorem State.openEncode_phase (l : Nat) : (s.openEncode l).phase = .encode := rfl
@[simp] theorem State.openEncode_w (l : Nat) : (s.openEncode l).w = s.w := rfl
@[simp] theorem State.openEncode_base (l : Nat) : (s.openEncode l).base = s.base := rfl
@[simp] theorem State.openEncode_scale (l : Nat) : (s.openEncode l).scale = s.scale := rfl
@[simp] theorem State.openEncode_buf (l : Nat) : (s.openEncode l).buf = [] := rfl
@[simp] theorem State.openEncode_cnt (l : Nat) : (s.openEncode l).cnt = s.cnt := rfl
@[simp] theorem State.openEncode_ntot (l : Nat) : (s.openEncode l).ntot = s.ntot := rfl
@[simp] theorem State.openEncode_tsize (l : Nat) : (s.openEncode l).tsize = l := rfl
@[simp] theorem State.openEncode_x (l : Nat) : (s.openEncode l).x = l := rfl
@[simp] theorem State.openEncode_occ (l : Nat) : (s.openEncode l).occ = [] := rfl
@[simp] theorem State.openEncode_sop (l : Nat) : (s.openEncode l).sop = s.sop := rfl
@[simp] theorem State.openEncode_errCode (l : Nat) : (s.openEncode l).errCode = s.errCode := rfl
@[simp] theorem State.openEncode_errSym (l : Nat) : (s.openEncode l).errSym = s.errSym := rfl
@[simp] theorem State.openEncode_errIdx (l : Nat) : (s.openEncode l).errIdx = s.errIdx := rfl
@[simp] theorem State.openEncode_tbl (l : Nat) : (s.openEncode l).tbl = s.tbl := rfl
@[simp] theorem State.openEncode_inputs (l : Nat) : (s.openEncode l).inputs = s.inputs := rfl
@[simp] theorem State.openEncode_resp (l : Nat) : (s.openEncode l).resp = s.resp := rfl
@[simp] theorem State.openEncode_draws (l : Nat) : (s.openEncode l).draws = s.draws := rfl

/-! ### `State.enterFault` -/

@[simp] theorem State.enterFault_build (f : FaultKind) (y : Symbol) (k : Nat) :
    (s.enterFault f y k).build = s.build := rfl
@[simp] theorem State.enterFault_phase (f : FaultKind) (y : Symbol) (k : Nat) :
    (s.enterFault f y k).phase = .fault := rfl
@[simp] theorem State.enterFault_w (f : FaultKind) (y : Symbol) (k : Nat) : (s.enterFault f y k).w = s.w := rfl
@[simp] theorem State.enterFault_base (f : FaultKind) (y : Symbol) (k : Nat) :
    (s.enterFault f y k).base = s.base := rfl
@[simp] theorem State.enterFault_scale (f : FaultKind) (y : Symbol) (k : Nat) :
    (s.enterFault f y k).scale = s.scale := rfl
@[simp] theorem State.enterFault_buf (f : FaultKind) (y : Symbol) (k : Nat) : (s.enterFault f y k).buf = s.buf := rfl
@[simp] theorem State.enterFault_cnt (f : FaultKind) (y : Symbol) (k : Nat) : (s.enterFault f y k).cnt = s.cnt := rfl
@[simp] theorem State.enterFault_ntot (f : FaultKind) (y : Symbol) (k : Nat) :
    (s.enterFault f y k).ntot = s.ntot := rfl
@[simp] theorem State.enterFault_tsize (f : FaultKind) (y : Symbol) (k : Nat) :
    (s.enterFault f y k).tsize = s.tsize := rfl
@[simp] theorem State.enterFault_x (f : FaultKind) (y : Symbol) (k : Nat) : (s.enterFault f y k).x = s.x := rfl
@[simp] theorem State.enterFault_occ (f : FaultKind) (y : Symbol) (k : Nat) : (s.enterFault f y k).occ = s.occ := rfl
@[simp] theorem State.enterFault_sop (f : FaultKind) (y : Symbol) (k : Nat) : (s.enterFault f y k).sop = s.sop := rfl
@[simp] theorem State.enterFault_errCode (f : FaultKind) (y : Symbol) (k : Nat) :
    (s.enterFault f y k).errCode = some f := rfl
@[simp] theorem State.enterFault_errSym (f : FaultKind) (y : Symbol) (k : Nat) :
    (s.enterFault f y k).errSym = y := rfl
@[simp] theorem State.enterFault_errIdx (f : FaultKind) (y : Symbol) (k : Nat) :
    (s.enterFault f y k).errIdx = k := rfl
@[simp] theorem State.enterFault_tbl (f : FaultKind) (y : Symbol) (k : Nat) : (s.enterFault f y k).tbl = s.tbl := rfl
@[simp] theorem State.enterFault_inputs (f : FaultKind) (y : Symbol) (k : Nat) :
    (s.enterFault f y k).inputs = s.inputs := rfl
@[simp] theorem State.enterFault_resp (f : FaultKind) (y : Symbol) (k : Nat) :
    (s.enterFault f y k).resp = s.resp := rfl
@[simp] theorem State.enterFault_draws (f : FaultKind) (y : Symbol) (k : Nat) :
    (s.enterFault f y k).draws = s.draws := rfl

/-! ### `State.clear` -/

@[simp] theorem State.clear_build : (s.clear).build = s.build := rfl
@[simp] theorem State.clear_phase : (s.clear).phase = .idle := rfl
@[simp] theorem State.clear_w : (s.clear).w = 1 := rfl
@[simp] theorem State.clear_base : (s.clear).base = 256 := rfl
@[simp] theorem State.clear_scale : (s.clear).scale = 8 := rfl
@[simp] theorem State.clear_buf : (s.clear).buf = [] := rfl
@[simp] theorem State.clear_cnt : (s.clear).cnt = [] := rfl
@[simp] theorem State.clear_ntot : (s.clear).ntot = 0 := rfl
@[simp] theorem State.clear_tsize : (s.clear).tsize = 0 := rfl
@[simp] theorem State.clear_x : (s.clear).x = 0 := rfl
@[simp] theorem State.clear_occ : (s.clear).occ = [] := rfl
@[simp] theorem State.clear_sop : (s.clear).sop = [] := rfl
@[simp] theorem State.clear_errCode : (s.clear).errCode = none := rfl
@[simp] theorem State.clear_errSym : (s.clear).errSym = [] := rfl
@[simp] theorem State.clear_errIdx : (s.clear).errIdx = 0 := rfl
@[simp] theorem State.clear_tbl : (s.clear).tbl = s.tbl := rfl
@[simp] theorem State.clear_inputs : (s.clear).inputs = s.inputs := rfl
@[simp] theorem State.clear_resp : (s.clear).resp = s.resp := rfl
@[simp] theorem State.clear_draws : (s.clear).draws = s.draws := rfl

/-! ### `State.setInputs` -/

@[simp] theorem State.setInputs_build (es : List PortEvent) : (s.setInputs es).build = s.build := rfl
@[simp] theorem State.setInputs_phase (es : List PortEvent) : (s.setInputs es).phase = s.phase := rfl
@[simp] theorem State.setInputs_w (es : List PortEvent) : (s.setInputs es).w = s.w := rfl
@[simp] theorem State.setInputs_base (es : List PortEvent) : (s.setInputs es).base = s.base := rfl
@[simp] theorem State.setInputs_scale (es : List PortEvent) : (s.setInputs es).scale = s.scale := rfl
@[simp] theorem State.setInputs_buf (es : List PortEvent) : (s.setInputs es).buf = s.buf := rfl
@[simp] theorem State.setInputs_cnt (es : List PortEvent) : (s.setInputs es).cnt = s.cnt := rfl
@[simp] theorem State.setInputs_ntot (es : List PortEvent) : (s.setInputs es).ntot = s.ntot := rfl
@[simp] theorem State.setInputs_tsize (es : List PortEvent) : (s.setInputs es).tsize = s.tsize := rfl
@[simp] theorem State.setInputs_x (es : List PortEvent) : (s.setInputs es).x = s.x := rfl
@[simp] theorem State.setInputs_occ (es : List PortEvent) : (s.setInputs es).occ = s.occ := rfl
@[simp] theorem State.setInputs_sop (es : List PortEvent) : (s.setInputs es).sop = s.sop := rfl
@[simp] theorem State.setInputs_errCode (es : List PortEvent) : (s.setInputs es).errCode = s.errCode := rfl
@[simp] theorem State.setInputs_errSym (es : List PortEvent) : (s.setInputs es).errSym = s.errSym := rfl
@[simp] theorem State.setInputs_errIdx (es : List PortEvent) : (s.setInputs es).errIdx = s.errIdx := rfl
@[simp] theorem State.setInputs_tbl (es : List PortEvent) : (s.setInputs es).tbl = s.tbl := rfl
@[simp] theorem State.setInputs_inputs (es : List PortEvent) : (s.setInputs es).inputs = es := rfl
@[simp] theorem State.setInputs_resp (es : List PortEvent) : (s.setInputs es).resp = s.resp := rfl
@[simp] theorem State.setInputs_draws (es : List PortEvent) : (s.setInputs es).draws = s.draws := rfl

/-! ### `State.setResp` -/

@[simp] theorem State.setResp_build (r : Option Response) : (s.setResp r).build = s.build := rfl
@[simp] theorem State.setResp_phase (r : Option Response) : (s.setResp r).phase = s.phase := rfl
@[simp] theorem State.setResp_w (r : Option Response) : (s.setResp r).w = s.w := rfl
@[simp] theorem State.setResp_base (r : Option Response) : (s.setResp r).base = s.base := rfl
@[simp] theorem State.setResp_scale (r : Option Response) : (s.setResp r).scale = s.scale := rfl
@[simp] theorem State.setResp_buf (r : Option Response) : (s.setResp r).buf = s.buf := rfl
@[simp] theorem State.setResp_cnt (r : Option Response) : (s.setResp r).cnt = s.cnt := rfl
@[simp] theorem State.setResp_ntot (r : Option Response) : (s.setResp r).ntot = s.ntot := rfl
@[simp] theorem State.setResp_tsize (r : Option Response) : (s.setResp r).tsize = s.tsize := rfl
@[simp] theorem State.setResp_x (r : Option Response) : (s.setResp r).x = s.x := rfl
@[simp] theorem State.setResp_occ (r : Option Response) : (s.setResp r).occ = s.occ := rfl
@[simp] theorem State.setResp_sop (r : Option Response) : (s.setResp r).sop = s.sop := rfl
@[simp] theorem State.setResp_errCode (r : Option Response) : (s.setResp r).errCode = s.errCode := rfl
@[simp] theorem State.setResp_errSym (r : Option Response) : (s.setResp r).errSym = s.errSym := rfl
@[simp] theorem State.setResp_errIdx (r : Option Response) : (s.setResp r).errIdx = s.errIdx := rfl
@[simp] theorem State.setResp_tbl (r : Option Response) : (s.setResp r).tbl = s.tbl := rfl
@[simp] theorem State.setResp_inputs (r : Option Response) : (s.setResp r).inputs = s.inputs := rfl
@[simp] theorem State.setResp_resp (r : Option Response) : (s.setResp r).resp = r := rfl
@[simp] theorem State.setResp_draws (r : Option Response) : (s.setResp r).draws = s.draws := rfl

/-! ### `State.setTbl` -/

@[simp] theorem State.setTbl_build (t : Table) : (s.setTbl t).build = s.build := rfl
@[simp] theorem State.setTbl_phase (t : Table) : (s.setTbl t).phase = s.phase := rfl
@[simp] theorem State.setTbl_w (t : Table) : (s.setTbl t).w = s.w := rfl
@[simp] theorem State.setTbl_base (t : Table) : (s.setTbl t).base = s.base := rfl
@[simp] theorem State.setTbl_scale (t : Table) : (s.setTbl t).scale = s.scale := rfl
@[simp] theorem State.setTbl_buf (t : Table) : (s.setTbl t).buf = s.buf := rfl
@[simp] theorem State.setTbl_cnt (t : Table) : (s.setTbl t).cnt = s.cnt := rfl
@[simp] theorem State.setTbl_ntot (t : Table) : (s.setTbl t).ntot = s.ntot := rfl
@[simp] theorem State.setTbl_tsize (t : Table) : (s.setTbl t).tsize = s.tsize := rfl
@[simp] theorem State.setTbl_x (t : Table) : (s.setTbl t).x = s.x := rfl
@[simp] theorem State.setTbl_occ (t : Table) : (s.setTbl t).occ = s.occ := rfl
@[simp] theorem State.setTbl_sop (t : Table) : (s.setTbl t).sop = s.sop := rfl
@[simp] theorem State.setTbl_errCode (t : Table) : (s.setTbl t).errCode = s.errCode := rfl
@[simp] theorem State.setTbl_errSym (t : Table) : (s.setTbl t).errSym = s.errSym := rfl
@[simp] theorem State.setTbl_errIdx (t : Table) : (s.setTbl t).errIdx = s.errIdx := rfl
@[simp] theorem State.setTbl_tbl (t : Table) : (s.setTbl t).tbl = t := rfl
@[simp] theorem State.setTbl_inputs (t : Table) : (s.setTbl t).inputs = s.inputs := rfl
@[simp] theorem State.setTbl_resp (t : Table) : (s.setTbl t).resp = s.resp := rfl
@[simp] theorem State.setTbl_draws (t : Table) : (s.setTbl t).draws = s.draws := rfl

/-! ### `State.drawn` -/

@[simp] theorem State.drawn_build : (s.drawn).build = s.build := rfl
@[simp] theorem State.drawn_phase : (s.drawn).phase = s.phase := rfl
@[simp] theorem State.drawn_w : (s.drawn).w = s.w := rfl
@[simp] theorem State.drawn_base : (s.drawn).base = s.base := rfl
@[simp] theorem State.drawn_scale : (s.drawn).scale = s.scale := rfl
@[simp] theorem State.drawn_buf : (s.drawn).buf = s.buf := rfl
@[simp] theorem State.drawn_cnt : (s.drawn).cnt = s.cnt := rfl
@[simp] theorem State.drawn_ntot : (s.drawn).ntot = s.ntot := rfl
@[simp] theorem State.drawn_tsize : (s.drawn).tsize = s.tsize := rfl
@[simp] theorem State.drawn_x : (s.drawn).x = s.x := rfl
@[simp] theorem State.drawn_occ : (s.drawn).occ = s.occ := rfl
@[simp] theorem State.drawn_sop : (s.drawn).sop = s.sop := rfl
@[simp] theorem State.drawn_errCode : (s.drawn).errCode = s.errCode := rfl
@[simp] theorem State.drawn_errSym : (s.drawn).errSym = s.errSym := rfl
@[simp] theorem State.drawn_errIdx : (s.drawn).errIdx = s.errIdx := rfl
@[simp] theorem State.drawn_tbl : (s.drawn).tbl = s.tbl := rfl
@[simp] theorem State.drawn_inputs : (s.drawn).inputs = s.inputs := rfl
@[simp] theorem State.drawn_resp : (s.drawn).resp = s.resp := rfl
@[simp] theorem State.drawn_draws : (s.drawn).draws = s.draws + 1 := rfl

end Sys2Proof.Machine
end

