-- ==== Sys2Proof/Laws/Stores.lean ====
section
/-! SUPPORT. The laws of the three stores: read after write, the canonical form, totals; and of the order `rank`. -/

namespace Sys2Proof.Machine

/-! ### The order of symbols -/

theorem rank_append_singleton (s : Symbol) (b : Byte) : rank (s ++ [b]) = rank s * 256 + b.toNat + 1 := by
  simp [rank, List.foldl_append]

/-- Different symbols have different ranks: bijective base-256 numeration. -/
theorem rank_injective : Function.Injective rank := by
  intro s
  induction s using List.reverseRecOn with
  | nil =>
    intro t h
    rcases List.eq_nil_or_concat t with rfl | ⟨t', b, rfl⟩
    · rfl
    · rw [List.concat_eq_append, rank_append_singleton] at h
      simp [rank] at h
  | append_singleton s b ih =>
    intro t h
    rcases List.eq_nil_or_concat t with rfl | ⟨t', c, rfl⟩
    · rw [rank_append_singleton] at h
      simp [rank] at h
    · rw [List.concat_eq_append] at h ⊢
      rw [rank_append_singleton, rank_append_singleton] at h
      have hb := b.isLt
      have hc := c.isLt
      have h1 : rank s = rank t' := by omega
      have h2 : b.toNat = c.toNat := by omega
      rw [ih h1, BitVec.eq_of_toNat_eq h2]

theorem rank_ne {s t : Symbol} (h : s ≠ t) : rank s ≠ rank t := fun e => h (rank_injective e)

/-! ### Counter arrays -/

@[simp] theorem Counters.get_nil (s : Symbol) : Counters.get [] s = 0 := rfl

theorem Counters.get_cons (k : Symbol) (v : Nat) (rest : Counters) (s : Symbol) :
    Counters.get ((k, v) :: rest) s = if k = s then v else Counters.get rest s := rfl

theorem Counters.wf_cons (k : Symbol) (v : Nat) (rest : Counters) :
    Counters.wf ((k, v) :: rest) = true ↔
      v ≠ 0 ∧ (∀ e ∈ rest, rank k < rank e.1) ∧ Counters.wf rest = true := by
  simp [Counters.wf, and_assoc]

/-- A symbol below all listed ones reads 0. -/
theorem Counters.get_eq_zero_of_below {c : Counters} {s : Symbol} (h : ∀ e ∈ c, rank s < rank e.1) :
    c.get s = 0 := by
  induction c with
  | nil => rfl
  | cons e rest ih =>
    obtain ⟨k, v⟩ := e
    have hk := h (k, v) (by simp)
    have hne : k ≠ s := by rintro rfl; exact lt_irrefl _ hk
    rw [Counters.get_cons, if_neg hne]
    exact ih (fun e he => h e (by simp [he]))

/-- Read after write, every cell (R12, R75). -/
theorem Counters.get_set {c : Counters} (hc : c.wf = true) (s : Symbol) (v : Nat) (t : Symbol) :
    (c.set s v).get t = if s = t then v else c.get t := by
  induction c with
  | nil =>
    by_cases hv : v = 0
    · simp [Counters.set, hv]
    · simp [Counters.set, hv, Counters.get_cons]
  | cons e rest ih =>
    obtain ⟨k, u⟩ := e
    obtain ⟨-, hk, hr⟩ := (Counters.wf_cons k u rest).1 hc
    simp only [Counters.set]
    by_cases hks : k = s
    · subst hks
      have h0 : Counters.get rest k = 0 := Counters.get_eq_zero_of_below hk
      by_cases hv : v = 0
      · simp only [if_true, hv, Counters.get_cons]
        by_cases ht : k = t
        · subst ht; simp [h0]
        · simp [ht]
      · simp only [if_true, if_neg hv, Counters.get_cons]
        by_cases ht : k = t <;> simp [ht]
    · simp only [if_neg hks]
      by_cases hlt : rank s < rank k
      · simp only [if_pos hlt]
        have h0 : Counters.get ((k, u) :: rest) s = 0 := by
          apply Counters.get_eq_zero_of_below
          intro e he
          rcases List.mem_cons.1 he with rfl | he
          · exact hlt
          · exact hlt.trans (hk e he)
        by_cases hv : v = 0
        · simp only [if_pos hv]
          by_cases ht : s = t
          · subst ht; simp [h0, hv]
          · simp [ht]
        · simp only [if_neg hv, Counters.get_cons s v]
      · simp only [if_neg hlt, Counters.get_cons, ih hr]
        by_cases ht : k = t
        · subst ht; simp [Ne.symm hks]
        · simp [ht]

theorem Counters.get_set_same {c : Counters} (hc : c.wf = true) (s : Symbol) (v : Nat) : (c.set s v).get s = v := by
  simp [Counters.get_set hc]

theorem Counters.get_set_other {c : Counters} (hc : c.wf = true) {s t : Symbol} (h : s ≠ t) (v : Nat) :
    (c.set s v).get t = c.get t := by
  simp [Counters.get_set hc, h]

/-- What a write can list: the cell written, or cells that were listed. -/
theorem Counters.mem_set {c : Counters} {s : Symbol} {v : Nat} {e : Symbol × Nat} (h : e ∈ c.set s v) :
    e = (s, v) ∨ e ∈ c := by
  induction c with
  | nil =>
    by_cases hv : v = 0 <;> simp [Counters.set, hv] at h
    exact .inl h
  | cons d rest ih =>
    obtain ⟨k, u⟩ := d
    simp only [Counters.set] at h
    split at h <;> split at h
    · exact .inr (by simp [h])
    · rcases List.mem_cons.1 h with h | h
      · exact .inl h
      · exact .inr (by simp [h])
    · split at h
      · exact .inr h
      · rcases List.mem_cons.1 h with h | h
        · exact .inl h
        · exact .inr h
    · rcases List.mem_cons.1 h with h | h
      · exact .inr (by simp [h])
      · rcases ih h with h | h
        · exact .inl h
        · exact .inr (by simp [h])

/-- A write keeps the canonical form. -/
theorem Counters.wf_set {c : Counters} (hc : c.wf = true) (s : Symbol) (v : Nat) : (c.set s v).wf = true := by
  induction c with
  | nil => by_cases hv : v = 0 <;> simp [Counters.set, hv, Counters.wf]
  | cons e rest ih =>
    obtain ⟨k, u⟩ := e
    obtain ⟨hu, hk, hr⟩ := (Counters.wf_cons k u rest).1 hc
    simp only [Counters.set]
    by_cases hks : k = s
    · subst hks
      by_cases hv : v = 0
      · simpa [hv] using hr
      · simpa [hv] using (Counters.wf_cons k v rest).2 ⟨hv, hk, hr⟩
    · simp only [if_neg hks]
      by_cases hlt : rank s < rank k
      · simp only [if_pos hlt]
        by_cases hv : v = 0
        · simpa [hv] using hc
        · simp only [if_neg hv]
          refine (Counters.wf_cons s v _).2 ⟨hv, ?_, hc⟩
          intro e he
          rcases List.mem_cons.1 he with rfl | he
          · exact hlt
          · exact hlt.trans (hk e he)
      · simp only [if_neg hlt]
        refine (Counters.wf_cons k u _).2 ⟨hu, ?_, ih hr⟩
        intro e he
        rcases Counters.mem_set he with rfl | he
        · exact lt_of_le_of_ne (not_lt.1 hlt) (rank_ne hks)
        · exact hk e he

@[simp] theorem Counters.total_nil : Counters.total [] = 0 := rfl

theorem Counters.total_cons (k : Symbol) (v : Nat) (rest : Counters) :
    Counters.total ((k, v) :: rest) = v + Counters.total rest := by
  simp [Counters.total]

/-- A write changes the total by the change of the cell written (R41). -/
theorem Counters.total_set {c : Counters} (hc : c.wf = true) (s : Symbol) (v : Nat) :
    (c.set s v).total + c.get s = c.total + v := by
  induction c with
  | nil =>
    by_cases hv : v = 0
    · simp [Counters.set, hv, Counters.total]
    · simp [Counters.set, hv, Counters.total]
  | cons e rest ih =>
    obtain ⟨k, u⟩ := e
    obtain ⟨-, hk, hr⟩ := (Counters.wf_cons k u rest).1 hc
    have ih := ih hr
    simp only [Counters.set, Counters.get_cons]
    by_cases hks : k = s
    · by_cases hv : v = 0
      · simp only [hks, hv, if_true, Counters.total_cons]
        omega
      · simp only [hks, hv, if_true, if_false, Counters.total_cons]
        omega
    · simp only [if_neg hks]
      by_cases hlt : rank s < rank k
      · have h0 : Counters.get rest s = 0 :=
          Counters.get_eq_zero_of_below (fun e he => hlt.trans (hk e he))
        by_cases hv : v = 0
        · simp only [hlt, hv, if_true, Counters.total_cons, h0]
        · simp only [hlt, hv, if_true, if_false, Counters.total_cons, h0]
          omega
      · simp only [if_neg hlt, Counters.total_cons]
        omega

/-- No cell is above the total. -/
theorem Counters.get_le_total (c : Counters) (s : Symbol) : c.get s ≤ c.total := by
  induction c with
  | nil => simp
  | cons e rest ih =>
    obtain ⟨k, v⟩ := e
    rw [Counters.get_cons, Counters.total_cons]
    split <;> omega

/-- A listed cell reads its value. -/
theorem Counters.get_of_mem {c : Counters} (hc : c.wf = true) {e : Symbol × Nat} (h : e ∈ c) : c.get e.1 = e.2 := by
  induction c with
  | nil => simp at h
  | cons d rest ih =>
    obtain ⟨k, u⟩ := d
    obtain ⟨-, hk, hr⟩ := (Counters.wf_cons k u rest).1 hc
    rcases List.mem_cons.1 h with rfl | h
    · simp [Counters.get_cons]
    · have hne : k ≠ e.1 := by
        intro he
        exact absurd (hk e h) (by rw [he]; exact lt_irrefl _)
      rw [Counters.get_cons, if_neg hne]
      exact ih hr h

/-- What reads above 0 is listed. -/
theorem Counters.mem_of_get {c : Counters} {s : Symbol} (h : c.get s ≠ 0) : (s, c.get s) ∈ c := by
  induction c with
  | nil => simp at h
  | cons d rest ih =>
    obtain ⟨k, u⟩ := d
    rw [Counters.get_cons] at h ⊢
    by_cases hk : k = s
    · simp [hk]
    · rw [if_neg hk] at h ⊢
      exact List.mem_cons_of_mem _ (ih h)

/-! ### The table -/

@[simp] theorem Table.read_nil (s : Symbol) (k : Nat) : Table.read [] s k = none := rfl

theorem Table.read_cons (e : TableEntry) (rest : Table) (s : Symbol) (k : Nat) :
    Table.read (e :: rest) s k = if e.isAt s k then some e.slot else Table.read rest s k := rfl

theorem TableEntry.isAt_iff (e : TableEntry) (s : Symbol) (k : Nat) :
    e.isAt s k = true ↔ e.sym = s ∧ e.idx = k := by
  simp [TableEntry.isAt]

theorem TableEntry.before_iff (a b : TableEntry) :
    a.before b = true ↔ rank a.sym < rank b.sym ∨ (a.sym = b.sym ∧ a.idx < b.idx) := by
  simp [TableEntry.before]

theorem TableEntry.before_trans {a b c : TableEntry} (h : a.before b = true) (h' : b.before c = true) :
    a.before c = true := by
  rw [TableEntry.before_iff] at *
  rcases h with h | ⟨h, hi⟩ <;> rcases h' with h' | ⟨h', hi'⟩
  · exact .inl (h.trans h')
  · exact .inl (by rwa [← h'])
  · exact .inl (by rwa [h])
  · exact .inr ⟨h.trans h', hi.trans hi'⟩

/-- Two entries are at one key, or one comes before the other. -/
theorem TableEntry.before_of_not {a b : TableEntry} (hk : b.isAt a.sym a.idx = false) (h : a.before b = false) :
    b.before a = true := by
  rw [TableEntry.before_iff]
  have hk' : ¬ (b.sym = a.sym ∧ b.idx = a.idx) := by
    rw [← TableEntry.isAt_iff]; simp [hk]
  have h' : ¬ (rank a.sym < rank b.sym ∨ (a.sym = b.sym ∧ a.idx < b.idx)) := by
    rw [← TableEntry.before_iff]; simp [h]
  rcases Nat.lt_trichotomy (rank b.sym) (rank a.sym) with hr | hr | hr
  · exact .inl hr
  · have hs := rank_injective hr
    refine .inr ⟨hs, ?_⟩
    have : ¬ a.idx < b.idx := fun hi => h' (.inr ⟨hs.symm, hi⟩)
    have : b.idx ≠ a.idx := fun hi => hk' ⟨hs, hi⟩
    omega
  · exact absurd (.inl hr) h'

theorem Table.wf_cons (e : TableEntry) (rest : Table) :
    Table.wf (e :: rest) = true ↔ (∀ d ∈ rest, e.before d = true) ∧ Table.wf rest = true := by
  simp [Table.wf]

theorem Table.mem_insert {t : Table} {e d : TableEntry} (h : d ∈ t.insert e) : d = e ∨ d ∈ t := by
  induction t with
  | nil => exact .inl (by simpa [Table.insert] using h)
  | cons c rest ih =>
    simp only [Table.insert] at h
    split at h
    · rcases List.mem_cons.1 h with h | h
      · exact .inl h
      · exact .inr (by simp [h])
    · split at h
      · rcases List.mem_cons.1 h with h | h
        · exact .inl h
        · exact .inr h
      · rcases List.mem_cons.1 h with h | h
        · exact .inr (by simp [h])
        · rcases ih h with h | h
          · exact .inl h
          · exact .inr (by simp [h])

/-- An insertion keeps the canonical form. -/
theorem Table.wf_insert {t : Table} (ht : t.wf = true) (e : TableEntry) : (t.insert e).wf = true := by
  induction t with
  | nil => simp [Table.insert, Table.wf]
  | cons c rest ih =>
    obtain ⟨hc, hr⟩ := (Table.wf_cons c rest).1 ht
    simp only [Table.insert]
    by_cases hk : c.isAt e.sym e.idx = true
    · simp only [hk, if_true]
      refine (Table.wf_cons e rest).2 ⟨fun d hd => ?_, hr⟩
      obtain ⟨hs, hi⟩ := (TableEntry.isAt_iff _ _ _).1 hk
      have := (TableEntry.before_iff _ _).1 (hc d hd)
      rw [hs, hi] at this
      exact (TableEntry.before_iff _ _).2 this
    · by_cases hb : e.before c = true
      · simp only [hk, hb, if_true]
        refine (Table.wf_cons e _).2 ⟨fun d hd => ?_, ht⟩
        rcases List.mem_cons.1 hd with rfl | hd
        · exact hb
        · exact TableEntry.before_trans hb (hc d hd)
      · simp only [hk, hb]
        refine (Table.wf_cons c _).2 ⟨fun d hd => ?_, ih hr⟩
        rcases Table.mem_insert hd with rfl | hd
        · exact TableEntry.before_of_not (by simpa using hk) (by simpa using hb)
        · exact hc d hd

/-- A table made from a listing is canonical. -/
theorem Table.wf_ofEntries (entries : List TableEntry) : (Table.ofEntries entries).wf = true := by
  induction entries with
  | nil => rfl
  | cons e rest ih => exact Table.wf_insert ih e

/-- No entry that comes after `e` in the order is at the key of `e`. -/
theorem Table.read_eq_none_of_after {t : Table} {e : TableEntry} (h : ∀ d ∈ t, e.before d = true) :
    t.read e.sym e.idx = none := by
  induction t with
  | nil => rfl
  | cons c rest ih =>
    have hc := (TableEntry.before_iff _ _).1 (h c (by simp))
    have : ¬ c.isAt e.sym e.idx = true := by
      rw [TableEntry.isAt_iff]
      rintro ⟨hs, hi⟩
      rw [hs, hi] at hc
      omega
    rw [Table.read_cons, if_neg this]
    exact ih (fun d hd => h d (by simp [hd]))

/-- Read after insertion, every key. -/
theorem Table.read_insert {t : Table} (e : TableEntry) (s : Symbol) (k : Nat) :
    (t.insert e).read s k = if e.isAt s k then some e.slot else t.read s k := by
  induction t with
  | nil => simp [Table.insert, Table.read_cons]
  | cons c rest ih =>
    simp only [Table.insert]
    by_cases hk : c.isAt e.sym e.idx = true
    · simp only [hk, if_true, Table.read_cons]
      obtain ⟨hs, hi⟩ := (TableEntry.isAt_iff _ _ _).1 hk
      by_cases he : e.isAt s k = true
      · simp [he]
      · have : ¬ c.isAt s k = true := by
          rw [TableEntry.isAt_iff, hs, hi, ← TableEntry.isAt_iff]; exact he
        simp [he, this]
    · by_cases hb : e.before c = true
      · simp [hk, hb, Table.read_cons]
      · rw [if_neg hk, if_neg hb, Table.read_cons, ih, Table.read_cons]
        by_cases hc : c.isAt s k = true
        · have : ¬ e.isAt s k = true := by
            rw [TableEntry.isAt_iff]
            rintro ⟨rfl, rfl⟩
            exact hk hc
          simp [hc, this]
        · simp [hc]

/-- The table made from a listing reads the first entry at a key, as the listing itself does. -/
theorem Table.read_ofEntries (entries : List TableEntry) (s : Symbol) (k : Nat) :
    (Table.ofEntries entries).read s k = Table.read entries s k := by
  induction entries with
  | nil => rfl
  | cons e rest ih =>
    rw [show Table.ofEntries (e :: rest) = (Table.ofEntries rest).insert e from rfl, Table.read_insert,
      Table.read_cons, ih]

end Sys2Proof.Machine
end

