-- ==== Sys2Proof/Laws/Ops.lean ====
section
/-! SUPPORT. One lemma per shared operation that says everything it can do. -/

namespace Sys2Proof.Machine

/-! ### Reply and fault entry -/

theorem reply_eq (st : Status) (d : Nat) (s : State) : reply st d s = .next (s.answer st d) := rfl

theorem refusePhase_eq (s : State) : refusePhase s = .next (s.answer .refusedPhase 0) := rfl

theorem refuseArg_eq (s : State) : refuseArg s = .next (s.answer .refusedArg 0) := rfl

theorem raise_eq (f : FaultKind) (y : Symbol) (k : Nat) (s : State) :
    raise f y k s = .next ((s.enterFault f y k).answer .fault f.code) := rfl

theorem reply_inversion {st : Status} {d : Nat} {s t : State} (h : reply st d s = .next t) : t = s.answer st d := by
  rw [reply_eq] at h
  injection h with h
  exact h.symm

theorem raise_inversion {f : FaultKind} {y : Symbol} {k : Nat} {s t : State} (h : raise f y k s = .next t) :
    t = (s.enterFault f y k).answer .fault f.code := reply_inversion h

/-! ### The actions -/

/-- COUNTSYM counts one, or finds the counters full (R142). -/
theorem countSym_cases (y : Symbol) (s : State) :
    (s.ntot = counterMax s.build ∧ countSym y s = .raised .counterOverflow y (s.cnt.get y)) ∨
    (s.ntot ≠ counterMax s.build ∧
      countSym y s = .done (s.countUp y (s.cnt.get y + 1)) (s.cnt.get y + 1)) := by
  unfold countSym
  split
  · exact .inl ⟨‹_›, rfl⟩
  · exact .inr ⟨‹_›, rfl⟩

theorem outOfInterval_iff (s : State) (v : Nat) :
    outOfInterval s v = true ↔ v < s.tsize ∨ s.base.toNat * s.tsize ≤ v := by
  simp [outOfInterval]

/-- ENCSYM finds the counter full, or the key absent, or the slot outside the interval, or moves (R203, R250). -/
theorem encSym_cases (y : Symbol) (s : State) :
    (s.occ.get y = counterMax s.build ∧ encSym y s = .raised .counterOverflow y (s.occ.get y)) ∨
    (s.occ.get y ≠ counterMax s.build ∧ s.tbl.read y (s.occ.get y + 1) = none ∧
      encSym y s = .raised .unknownSymbolOccurrence y (s.occ.get y + 1)) ∨
    (∃ v, s.occ.get y ≠ counterMax s.build ∧ s.tbl.read y (s.occ.get y + 1) = some v ∧
      (v < s.tsize ∨ s.base.toNat * s.tsize ≤ v) ∧ encSym y s = .raised .tableRange y (s.occ.get y + 1)) ∨
    (∃ v, s.occ.get y ≠ counterMax s.build ∧ s.tbl.read y (s.occ.get y + 1) = some v ∧
      s.tsize ≤ v ∧ v < s.base.toNat * s.tsize ∧ encSym y s = .done (s.moveTo v y (s.occ.get y + 1)) v) := by
  unfold encSym
  split
  · exact .inl ⟨‹_›, rfl⟩
  · rename_i hmax
    split
    · exact .inr (.inl ⟨hmax, ‹_›, rfl⟩)
    · rename_i v hv
      split
      · rename_i ho
        exact .inr (.inr (.inl ⟨v, hmax, hv, (outOfInterval_iff s v).1 ho, rfl⟩))
      · rename_i ho
        have : ¬ (v < s.tsize ∨ s.base.toNat * s.tsize ≤ v) := by rw [← outOfInterval_iff]; exact ho
        exact .inr (.inr (.inr ⟨v, hmax, hv, by omega, by omega, rfl⟩))

/-- EMIT is COUNTSYM in phase COUNT (R122). -/
theorem emit_count {s : State} (h : s.phase = .count) (y : Symbol) : emit y s = countSym y s := by
  simp [emit, h]

/-- EMIT is ENCSYM in phase ENCODE (R122). -/
theorem emit_encode {s : State} (h : s.phase = .encode) (y : Symbol) : emit y s = encSym y s := by
  simp [emit, h]

/-- Whatever EMIT answers, it raised a fault of its symbol or made the updates of one action (R122). -/
theorem emit_cases (y : Symbol) (s : State) :
    (∃ f k, emit y s = .raised f y k ∧
      (f = .counterOverflow ∨ f = .unknownSymbolOccurrence ∨ f = .tableRange)) ∨
    (s.phase = .count ∧ emit y s = .done (s.countUp y (s.cnt.get y + 1)) (s.cnt.get y + 1)) ∨
    (s.phase ≠ .count ∧ ∃ v, emit y s = .done (s.moveTo v y (s.occ.get y + 1)) v) := by
  by_cases hp : s.phase = .count
  · rw [emit_count hp]
    rcases countSym_cases y s with ⟨-, h⟩ | ⟨-, h⟩
    · exact .inl ⟨_, _, h, .inl rfl⟩
    · exact .inr (.inl ⟨hp, h⟩)
  · have he : emit y s = encSym y s := by simp [emit, hp]
    rw [he]
    rcases encSym_cases y s with ⟨-, h⟩ | ⟨-, -, h⟩ | ⟨v, -, -, -, h⟩ | ⟨v, -, -, -, -, h⟩
    · exact .inl ⟨_, _, h, .inl rfl⟩
    · exact .inl ⟨_, _, h, .inr (.inl rfl)⟩
    · exact .inl ⟨_, _, h, .inr (.inr rfl)⟩
    · exact .inr (.inr ⟨hp, v, h⟩)

theorem finishEmit_done (t s : State) (d : Nat) (last : State → State) :
    finishEmit (.done t d) s last = .next ((last t).answer .sym d) := rfl

theorem finishEmit_raised (f : FaultKind) (y : Symbol) (k : Nat) (s : State) (last : State → State) :
    finishEmit (.raised f y k) s last = .next ((s.enterFault f y k).answer .fault f.code) := rfl

/-! ### Registers -/

theorem registerOf_reserved {r : Byte} (h : 11 ≤ r.toNat) : Register.ofNumber r = none := by
  unfold Register.ofNumber
  split <;> first | omega | rfl

/-! ### The ports -/

theorem runWord_of_decode {w : CommandWord} {i : Instr} (h : decode w = some i) (s : State) :
    runWord w s = exec i s := by
  simp [runWord, h]

theorem runWord_illegal {w : CommandWord} (h : decode w = none) (s : State) :
    runWord w s = .next (s.answer .illegal 0) := by
  simp [runWord, h, reply_eq]

theorem acceptWord_taken {s : State} (h : s.resp = none) (w : CommandWord) : acceptWord w s = runWord w s := by
  simp [acceptWord, h]

theorem acceptWord_untaken {s : State} (h : s.resp ≠ none) (w : CommandWord) :
    acceptWord w s = .refused .responseNotTaken := by
  simp [acceptWord, h]

/-- What `rst` leaves on the response port: nothing, or the response that was there (U6). -/
theorem responseAfterRst_cases (s : State) : responseAfterRst s = none ∨ responseAfterRst s = s.resp := by
  unfold responseAfterRst
  split
  · exact .inr rfl
  · exact .inl rfl

end Sys2Proof.Machine
end

