-- ==== Sys2Proof/Laws/Exec.lean ====
section
/-! SUPPORT. One inversion lemma per command: everything it can answer, in terms of the named updates. -/

namespace Sys2Proof.Machine

theorem Phase.inPass_iff (p : Phase) : p.inPass = true ↔ p = .count ∨ p = .encode := by
  cases p <;> simp [Phase.inPass]

theorem Phase.configurable_iff (p : Phase) : p.configurable = true ↔ p = .idle ∨ p = .counted := by
  cases p <;> simp [Phase.configurable]

theorem Phase.mayCount_iff (p : Phase) : p.mayCount = true ↔ p = .idle ∨ p = .counted ∨ p = .encoded := by
  cases p <;> simp [Phase.mayCount]

theorem Phase.mayEncode_iff (p : Phase) : p.mayEncode = true ↔ p = .counted ∨ p = .encoded := by
  cases p <;> simp [Phase.mayEncode]

/-- `RD` refuses or reads a register (R226). -/
theorem execRd_cases (r : Byte) (s : State) :
    (Register.ofNumber r = none ∧ execRd r s = .next (s.answer .refusedArg 0)) ∨
    (∃ q, Register.ofNumber r = some q ∧ q.readClass.readable s.phase = false ∧
      execRd r s = .next (s.answer .refusedPhase 0)) ∨
    (∃ q, Register.ofNumber r = some q ∧ q.readClass.readable s.phase = true ∧
      execRd r s = .next (s.answer .ok (registerValue q s))) := by
  unfold execRd
  split
  · exact .inl ⟨‹_›, rfl⟩
  · rename_i q hq
    split
    · exact .inr (.inr ⟨q, hq, ‹_›, rfl⟩)
    · exact .inr (.inl ⟨q, hq, Bool.eq_false_iff.2 ‹_›, rfl⟩)

/-- `SETW` refuses or sets the width (R121). -/
theorem execSetw_cases (w : Byte) (s : State) :
    (s.phase ≠ .idle ∧ execSetw w s = .next (s.answer .refusedPhase 0)) ∨
    (s.phase = .idle ∧ (w.toNat = 0 ∨ s.build.wmax < w.toNat) ∧ execSetw w s = .next (s.answer .refusedArg 0)) ∨
    (s.phase = .idle ∧ 1 ≤ w.toNat ∧ w.toNat ≤ s.build.wmax ∧
      execSetw w s = .next ((s.setW w).answer .ok w.toNat)) := by
  unfold execSetw
  split
  · split
    · exact .inr (.inl ⟨‹_›, ‹_›, rfl⟩)
    · exact .inr (.inr ⟨‹_›, by omega, by omega, rfl⟩)
  · exact .inl ⟨‹_›, rfl⟩

/-- `SETB` refuses or sets the base (R160). -/
theorem execSetb_cases (b : Imm24) (s : State) :
    (s.phase.configurable = false ∧ execSetb b s = .next (s.answer .refusedPhase 0)) ∨
    (s.phase.configurable = true ∧ b.toNat < 2 ∧ execSetb b s = .next (s.answer .refusedArg 0)) ∨
    (s.phase.configurable = true ∧ 2 ≤ b.toNat ∧ execSetb b s = .next ((s.setBase b).answer .ok b.toNat)) := by
  unfold execSetb
  split
  · split
    · exact .inr (.inl ⟨‹_›, ‹_›, rfl⟩)
    · exact .inr (.inr ⟨‹_›, by omega, rfl⟩)
  · exact .inl ⟨Bool.eq_false_iff.2 ‹_›, rfl⟩

/-- `SETK` refuses or sets the scale (R161). -/
theorem execSetk_cases (k : Imm24) (s : State) :
    (s.phase.configurable = false ∧ execSetk k s = .next (s.answer .refusedPhase 0)) ∨
    (s.phase.configurable = true ∧ k.toNat < 1 ∧ execSetk k s = .next (s.answer .refusedArg 0)) ∨
    (s.phase.configurable = true ∧ 1 ≤ k.toNat ∧ execSetk k s = .next ((s.setScale k).answer .ok k.toNat)) := by
  unfold execSetk
  split
  · split
    · exact .inr (.inl ⟨‹_›, ‹_›, rfl⟩)
    · exact .inr (.inr ⟨‹_›, by omega, rfl⟩)
  · exact .inl ⟨Bool.eq_false_iff.2 ‹_›, rfl⟩

/-- `CBEGIN` refuses or opens a count pass (R141). -/
theorem execCbegin_cases (s : State) :
    (s.phase.mayCount = false ∧ execCbegin s = .next (s.answer .refusedPhase 0)) ∨
    (s.phase.mayCount = true ∧ execCbegin s = .next (s.openCount.answer .ok 0)) := by
  unfold execCbegin
  split
  · exact .inr ⟨‹_›, rfl⟩
  · exact .inl ⟨Bool.eq_false_iff.2 ‹_›, rfl⟩

/-- `EBEGIN` refuses or opens an encode pass (R201). -/
theorem execEbegin_cases (s : State) :
    (s.phase.mayEncode = false ∧ execEbegin s = .next (s.answer .refusedPhase 0)) ∨
    (s.phase.mayEncode = true ∧ 2 ^ s.build.sw < s.base.toNat * tableSize s ∧
      execEbegin s = .next (s.answer .refusedArg 0)) ∨
    (s.phase.mayEncode = true ∧ s.base.toNat * tableSize s ≤ 2 ^ s.build.sw ∧
      execEbegin s = .next ((s.openEncode (tableSize s)).answer .ok (tableSize s))) := by
  unfold execEbegin
  split
  · split
    · exact .inr (.inl ⟨‹_›, ‹_›, rfl⟩)
    · exact .inr (.inr ⟨‹_›, by omega, rfl⟩)
  · exact .inl ⟨Bool.eq_false_iff.2 ‹_›, rfl⟩

/-- `SYMB` refuses or writes the query operand (R143). -/
theorem execSymb_cases (first : Bool) (b : Byte) (s : State) :
    (s.phase = .fault ∧ execSymb first b s = .next (s.answer .refusedPhase 0)) ∨
    (s.phase ≠ .fault ∧ first = false ∧ s.sop.length = s.build.wmax ∧
      execSymb first b s = .next (s.answer .refusedArg 0)) ∨
    (s.phase ≠ .fault ∧ first = true ∧ execSymb first b s = .next ((s.setSop [b]).answer .ok 1)) ∨
    (s.phase ≠ .fault ∧ first = false ∧ s.sop.length ≠ s.build.wmax ∧
      execSymb first b s = .next ((s.setSop (s.sop ++ [b])).answer .ok (s.sop.length + 1))) := by
  unfold execSymb
  split
  · exact .inl ⟨‹_›, rfl⟩
  · split
    · exact .inr (.inr (.inl ⟨‹_›, ‹_›, rfl⟩))
    · split
      · exact .inr (.inl ⟨‹_›, Bool.eq_false_iff.2 ‹_›, ‹_›, rfl⟩)
      · exact .inr (.inr (.inr ⟨‹_›, Bool.eq_false_iff.2 ‹_›, ‹_›, by simp [reply_eq]⟩))

/-- `RDCNT` refuses or reads (R144). -/
theorem execRdcnt_cases (s : State) :
    (ReadClass.h.readable s.phase = false ∧ execRdcnt s = .next (s.answer .refusedPhase 0)) ∨
    (ReadClass.h.readable s.phase = true ∧ s.sop = [] ∧ execRdcnt s = .next (s.answer .refusedArg 0)) ∨
    (ReadClass.h.readable s.phase = true ∧ s.sop ≠ [] ∧
      execRdcnt s = .next (s.answer .ok (s.cnt.get s.sop))) := by
  unfold execRdcnt
  split
  · split
    · exact .inr (.inl ⟨‹_›, ‹_›, rfl⟩)
    · exact .inr (.inr ⟨‹_›, ‹_›, rfl⟩)
  · exact .inl ⟨Bool.eq_false_iff.2 ‹_›, rfl⟩

/-- `RDOCC` refuses or reads (R205). -/
theorem execRdocc_cases (s : State) :
    (ReadClass.e.readable s.phase = false ∧ execRdocc s = .next (s.answer .refusedPhase 0)) ∨
    (ReadClass.e.readable s.phase = true ∧ s.sop = [] ∧ execRdocc s = .next (s.answer .refusedArg 0)) ∨
    (ReadClass.e.readable s.phase = true ∧ s.sop ≠ [] ∧
      execRdocc s = .next (s.answer .ok (s.occ.get s.sop))) := by
  unfold execRdocc
  split
  · split
    · exact .inr (.inl ⟨‹_›, ‹_›, rfl⟩)
    · exact .inr (.inr ⟨‹_›, ‹_›, rfl⟩)
  · exact .inl ⟨Bool.eq_false_iff.2 ‹_›, rfl⟩

/-- `SRCERR` refuses or faults (R127). -/
theorem execSrcerr_cases (s : State) :
    (s.phase.inPass = false ∧ execSrcerr s = .next (s.answer .refusedPhase 0)) ∨
    (s.phase.inPass = true ∧
      execSrcerr s = .next (((s.setBuf []).enterFault .sourceReadError [] 0).answer .fault 1)) := by
  unfold execSrcerr
  split
  · exact .inr ⟨‹_›, rfl⟩
  · exact .inl ⟨Bool.eq_false_iff.2 ‹_›, rfl⟩

/-- `PUSH` refuses, fills the buffer, or ends as EMIT of the completed symbol does (R123). -/
theorem execPush_cases (b : Byte) (s : State) :
    (s.phase.inPass = false ∧ execPush b s = .next (s.answer .refusedPhase 0)) ∨
    (s.phase.inPass = true ∧ s.buf.length + 1 < s.w.toNat ∧
      execPush b s = .next ((s.setBuf (s.buf ++ [b])).answer .ok 0)) ∨
    (s.phase.inPass = true ∧ s.w.toNat ≤ s.buf.length + 1 ∧
      execPush b s = finishEmit (emit (s.buf ++ [b]) (s.setBuf [])) (s.setBuf []) id) := by
  unfold execPush
  split
  · split
    · rename_i h
      exact .inr (.inl ⟨‹_›, by simpa using h, rfl⟩)
    · rename_i h
      exact .inr (.inr ⟨‹_›, by simpa using h, rfl⟩)
  · exact .inl ⟨Bool.eq_false_iff.2 ‹_›, rfl⟩

/-- `END` refuses, closes the pass, or ends as EMIT of the short symbol does (R125). -/
theorem execEnd_cases (s : State) :
    (s.phase.inPass = false ∧ execEnd s = .next (s.answer .refusedPhase 0)) ∨
    (s.phase.inPass = true ∧ s.buf = [] ∧ execEnd s = .next ((s.setPhase s.phase.afterEnd).answer .ok 0)) ∨
    (s.phase.inPass = true ∧ s.buf ≠ [] ∧
      execEnd s = finishEmit (emit s.buf (s.setBuf [])) (s.setBuf []) (fun t => t.setPhase s.phase.afterEnd)) := by
  unfold execEnd
  split
  · split
    · exact .inr (.inl ⟨‹_›, ‹_›, rfl⟩)
    · exact .inr (.inr ⟨‹_›, ‹_›, rfl⟩)
  · exact .inl ⟨Bool.eq_false_iff.2 ‹_›, rfl⟩

/-- The end of a `PUSH` or `END` that completes the symbol `y` of a pass: a fault entry, or one count, or one move of
the encoder (R122, R245). -/
theorem finishEmit_cases (y : Symbol) {s : State} (hp : s.phase.inPass = true) (last : State → State) :
    (∃ f k, f ∈ (if s.phase = .count then [FaultKind.counterOverflow]
        else [.unknownSymbolOccurrence, .tableRange, .counterOverflow]) ∧
      emit y (s.setBuf []) = .raised f y k ∧
      finishEmit (emit y (s.setBuf [])) (s.setBuf []) last =
        .next (((s.setBuf []).enterFault f y k).answer .fault f.code)) ∨
    (s.phase = .count ∧ s.ntot ≠ counterMax s.build ∧
      finishEmit (emit y (s.setBuf [])) (s.setBuf []) last =
        .next ((last ((s.setBuf []).countUp y (s.cnt.get y + 1))).answer .sym (s.cnt.get y + 1))) ∨
    (s.phase = .encode ∧ s.occ.get y ≠ counterMax s.build ∧
      ∃ v, s.tbl.read y (s.occ.get y + 1) = some v ∧ s.tsize ≤ v ∧ v < s.base.toNat * s.tsize ∧
        finishEmit (emit y (s.setBuf [])) (s.setBuf []) last =
          .next ((last ((s.setBuf []).moveTo v y (s.occ.get y + 1))).answer .sym v)) := by
  rcases (Phase.inPass_iff _).1 hp with h | h
  · rw [emit_count (by simpa using h)]
    rcases countSym_cases y (s.setBuf []) with ⟨-, he⟩ | ⟨hn, he⟩ <;> rw [he]
    · exact .inl ⟨_, _, by simp [h], rfl, rfl⟩
    · exact .inr (.inl ⟨h, by simpa using hn, rfl⟩)
  · rw [emit_encode (by simpa using h)]
    rcases encSym_cases y (s.setBuf []) with ⟨-, he⟩ | ⟨-, -, he⟩ | ⟨v, -, -, -, he⟩ | ⟨v, hm, hr, hl, hu, he⟩ <;> rw [he]
    · exact .inl ⟨_, _, by simp [h], rfl, rfl⟩
    · exact .inl ⟨_, _, by simp [h], rfl, rfl⟩
    · exact .inl ⟨_, _, by simp [h], rfl, rfl⟩
    · exact .inr (.inr ⟨h, by simpa using hm, v, by simpa using hr, by simpa using hl, by simpa using hu, rfl⟩)

end Sys2Proof.Machine
end

