-- ==== Sys2Proof/Laws/PerInstr.lean ====
section
/-! SUPPORT. Statements about every command as syntax, one lemma per constructor. -/

namespace Sys2Proof.Laws.EncodeWellFormed

/-- The word of a command is well formed: its opcode is defined and its must-be-zero bits are 0 (R97). -/
def Statement (i : Instr) : Prop := (encode i).wellFormed = true

theorem nop : Statement .nop := wordZ_wellFormed rfl

theorem reset : Statement .reset := wordZ_wellFormed rfl

theorem rd (r : Byte) : Statement (.rd r) := wordB_wellFormed rfl (by simp) r

theorem setw (w : Byte) : Statement (.setw w) := wordB_wellFormed rfl (by simp) w

theorem setb (b : Imm24) : Statement (.setb b) := wordI_wellFormed rfl b

theorem setk (k : Imm24) : Statement (.setk k) := wordI_wellFormed rfl k

theorem cbegin : Statement .cbegin := wordZ_wellFormed rfl

theorem ebegin : Statement .ebegin := wordZ_wellFormed rfl

theorem push (b : Byte) : Statement (.push b) := wordB_wellFormed rfl (by simp) b

theorem endStream : Statement .endStream := wordZ_wellFormed rfl

theorem srcerr : Statement .srcerr := wordZ_wellFormed rfl

theorem symb (first : Bool) (b : Byte) : Statement (.symb first b) := wordB_wellFormed rfl (fun _ => rfl) b

theorem rdcnt : Statement .rdcnt := wordZ_wellFormed rfl

theorem rdocc : Statement .rdocc := wordZ_wellFormed rfl

end Sys2Proof.Laws.EncodeWellFormed
end

