-- ==== Sys2Proof/Laws/Step.lean ====
section
/-! SUPPORT. Everything a step can do. -/

namespace Sys2Proof.Machine

/-- A step that goes on waits, runs a command, replies ILLEGAL, lets the host take the response, puts a table in place,
or resets. -/
theorem step_cases {s t : State} (h : step s = .next t) :
    (s.inputs = [] ∧ t = s) ∨
    (∃ w rest i, s.inputs = .command w :: rest ∧ s.resp = none ∧ decode w = some i ∧
      exec i (s.setInputs rest) = .next t) ∨
    (∃ w rest, s.inputs = .command w :: rest ∧ s.resp = none ∧ decode w = none ∧
      t = (s.setInputs rest).answer .illegal 0) ∨
    (∃ rest, s.inputs = .takeResponse :: rest ∧ t = (s.setInputs rest).setResp none) ∨
    (∃ entries rest, s.inputs = .installTable entries :: rest ∧ s.phase ≠ .encode ∧
      t = (s.setInputs rest).setTbl (Table.ofEntries entries)) ∨
    (∃ rest, s.inputs = .rst :: rest ∧
      t = ((s.setInputs rest).clear.setResp (responseAfterRst (s.setInputs rest))).drawn) := by
  unfold step stepPorts at h
  split at h
  · injection h with h
    exact .inl ⟨‹_›, h.symm⟩
  · rename_i e rest hi
    cases e with
    | command w =>
      have hr : (s.setInputs rest).resp = none := by
        by_contra hc
        rw [handle, acceptWord_untaken hc] at h
        cases h
      rw [handle, acceptWord_taken hr] at h
      cases hd : decode w with
      | some i => exact .inr (.inl ⟨w, rest, i, hi, hr, hd, by rw [← runWord_of_decode hd]; exact h⟩)
      | none =>
        rw [runWord_illegal hd] at h
        injection h with h
        exact .inr (.inr (.inl ⟨w, rest, hi, hr, hd, h.symm⟩))
    | takeResponse =>
      injection h with h
      exact .inr (.inr (.inr (.inl ⟨rest, hi, h.symm⟩)))
    | installTable entries =>
      simp only [handle, installTable] at h
      split at h
      · cases h
      · rename_i hp
        injection h with h
        exact .inr (.inr (.inr (.inr (.inl ⟨entries, rest, hi, hp, h.symm⟩))))
    | rst =>
      injection h with h
      exact .inr (.inr (.inr (.inr (.inr ⟨rest, hi, h.symm⟩))))

end Sys2Proof.Machine
end

