-- ==== Sys2Proof/Tests/Slice0.lean ====
section
/-! SUPPORT. Tests, their expected results from the vectors of spec/95_test_vectors.md (T, E, B, P name them) and the
examples of the rules; and, for every statement with hypotheses, a witness that meets them. -/

namespace Sys2Proof.Tests

open Sys2Proof Sys2Proof.Machine

/-! ### Small states -/

/-- Part of the state an outcome leads to. -/
def view {α : Type} (r : Result) (f : State → α) : Option α :=
  match r with
  | .next t => some (f t)
  | .fault _ => none
  | .refused _ => none

/-- The response of an outcome. -/
def said (r : Result) : Option (Option Response) := view r State.resp

/-- The build of T19, T33, P7, P8. -/
def smallBuild : Build := { wmax := 2, cw := 2, sw := 8 }

/-- The reset state, but in another phase. -/
def inPhase (p : Phase) : State := { State.reset with phase := p }

/-- Table B3, `TBL3` of the encoder vectors. -/
def tbl3 : Table := Table.ofEntries [⟨[0x61], 1, 3⟩, ⟨[0x62], 1, 4⟩, ⟨[0x0A], 1, 5⟩]

/-- E-SETUP: `SETB 2`, `SETK 1`, `COUNT "ab\n"`, table B3. -/
def counted3 : State :=
  { State.reset with
    phase := .counted, base := 2, scale := 1, cnt := [([0x0A], 1), ([0x61], 1), ([0x62], 1)], ntot := 3, tbl := tbl3 }

/-- E-SETUP after `EBEGIN` (T27). -/
def encoding3 : State := { counted3 with phase := .encode, tsize := 3, x := 3 }

/-- The small build with its counters full (T19): `"aab"` counted. -/
def fullCount : State :=
  { State.resetFor smallBuild with phase := .count, cnt := [([0x61], 2), ([0x62], 1)], ntot := 3 }

/-- The small build with the occurrence counter of `"a"` full (T33). -/
def fullOcc : State :=
  { State.resetFor smallBuild with
    phase := .encode, base := 2, scale := 1, cnt := [([0x61], 3)], ntot := 3, tsize := 3, x := 5, occ := [([0x61], 3)],
    tbl := [⟨[0x61], 1, 3⟩, ⟨[0x61], 2, 4⟩, ⟨[0x61], 3, 5⟩, ⟨[0x61], 4, 3⟩] }

/-- The state of T31 after `EBEGIN`: `"aab"` counted, table B2. -/
def builtTable : State :=
  { State.reset with
    phase := .encode, base := 2, scale := 1, cnt := [([0x61], 2), ([0x62], 1)], ntot := 3, tsize := 3, x := 3,
    tbl := Table.ofEntries [⟨[0x61], 2, 3⟩, ⟨[0x62], 1, 4⟩, ⟨[0x61], 3, 5⟩] }

/-- A state with a command word on the command port. -/
def presented (s : State) (w : CommandWord) : State := { s with inputs := [.command w] }

/-! ### Encoding: words written out field by field from R91 to R94 -/

theorem test_decode_nop : decode (0x00#8 ++ 0#24) = some .nop ∧ decode 0x00000001 = none := by decide

theorem test_decode_reset : decode (0x01#8 ++ 0#24) = some .reset := by decide

theorem test_decode_rd : decode (0x02#8 ++ 0#15 ++ 0#1 ++ 10#8) = some (.rd 10) ∧ decode 0x02000100 = none := by decide

theorem test_decode_setw : decode (0x10#8 ++ 0#15 ++ 0#1 ++ 1#8) = some (.setw 1) ∧ decode 0x10000200 = none := by
  decide

theorem test_decode_setb : decode (0x11#8 ++ 0xFFFFFF#24) = some (.setb 16777215) := by decide

theorem test_decode_setk : decode (0x12#8 ++ 1#24) = some (.setk 1) := by decide

theorem test_decode_cbegin : decode (0x20#8 ++ 0#24) = some .cbegin ∧ decode 0x20800000 = none := by decide

theorem test_decode_ebegin : decode (0x21#8 ++ 0#24) = some .ebegin := by decide

theorem test_decode_push : decode (0x22#8 ++ 0#15 ++ 0#1 ++ 0xFF#8) = some (.push 255) ∧ decode 0x22000161 = none := by
  decide

theorem test_decode_end : decode (0x23#8 ++ 0#24) = some .endStream := by decide

theorem test_decode_srcerr : decode (0x24#8 ++ 0#24) = some .srcerr := by decide

theorem test_decode_symb :
    decode (0x30#8 ++ 0#15 ++ 1#1 ++ 0x0A#8) = some (.symb true 0x0A) ∧ decode 0x30000261 = none ∧
      decode 0x30010061 = none := by
  decide

theorem test_decode_rdcnt : decode (0x31#8 ++ 0#24) = some .rdcnt := by decide

theorem test_decode_rdocc : decode (0x32#8 ++ 0#24) = some .rdocc := by decide

/-- E2: undefined opcodes. -/
theorem test_decode_undefined :
    ([0x0F000000, 0x13000000, 0x25000000, 0x33000000, 0xFF000000] : List CommandWord).all
      (fun w => (decode w).isNone) = true := by
  decide

theorem test_decodeTableWord : decodeTableWord 32 0x30000161 = some (.symb true 0x61) := by decide

/-! ### Well-formedness: an ill-formed word for each check of R97 -/

theorem test_wellFormed_opcode : CommandWord.wellFormed 0x03000000 = false := by decide

theorem test_wellFormed_formatZ : CommandWord.wellFormed 0x20800000 = false := by decide

theorem test_wellFormed_formatB : CommandWord.wellFormed 0x30000261 = false := by decide

theorem test_wellFormed_flag : CommandWord.wellFormed 0x22000161 = false := by decide

theorem test_wellFormed_legal : CommandWord.wellFormed 0x300001FF = true ∧ CommandWord.wellFormed 0x11FFFFFF = true := by
  decide

/-! ### The commands -/

/-- T42. -/
theorem test_nop_keeps_the_buffer :
    view (exec .nop { inPhase .count with buf := [0x61] }) (fun t => (t.resp, t.buf, t.phase)) =
      some (some ⟨.ok, 0⟩, [0x61], .count) := by
  decide

/-- T43. -/
theorem test_reset_discards_the_configuration :
    view (exec .reset { inPhase .count with w := 2, base := 2, scale := 1, sop := [0x61], buf := [0x61] })
      (fun t => (t.resp, t.w, t.base, t.scale, t.sop)) = some (some ⟨.ok, 0⟩, 1, 256, 8, []) := by
  decide

/-- T41: phase ENCODE, a buffer of 1, an operand of 2. -/
theorem test_rd_status :
    said (exec (.rd 0) { encoding3 with buf := [0x61], sop := [0x61, 0x62] }) = some (some ⟨.ok, 0x020103⟩) := by
  decide

/-- R226: after UnknownSymbolOccurrence on ("b", 2); `RD 11`; `RD X` in phase COUNT. -/
theorem test_rd_errsym :
    said (exec (.rd 8) { inPhase .fault with errSym := [0x62], errIdx := 2 }) = some (some ⟨.ok, 0x10062⟩) ∧
    said (exec (.rd 11) (inPhase .fault)) = some (some ⟨.refusedArg, 0⟩) ∧
    said (exec (.rd 6) (inPhase .count)) = some (some ⟨.refusedPhase, 0⟩) := by
  decide

/-- T8. -/
theorem test_setw :
    said (exec (.setw 0) State.reset) = some (some ⟨.refusedArg, 0⟩) ∧
    said (exec (.setw 3) State.reset) = some (some ⟨.refusedArg, 0⟩) ∧
    view (exec (.setw 2) State.reset) (fun t => (t.resp, t.w)) = some (some ⟨.ok, 2⟩, 2) := by
  decide

/-- T8: phase before operand. -/
theorem test_setw_phase_first : said (exec (.setw 0) (inPhase .count)) = some (some ⟨.refusedPhase, 0⟩) := by decide

/-- T21, T24. -/
theorem test_setb :
    said (exec (.setb 1) State.reset) = some (some ⟨.refusedArg, 0⟩) ∧
    view (exec (.setb 16777215) State.reset) (fun t => (t.resp, t.base)) = some (some ⟨.ok, 16777215⟩, 16777215) ∧
    said (exec (.setb 1) (inPhase .count)) = some (some ⟨.refusedPhase, 0⟩) := by
  decide

/-- T22, T23. -/
theorem test_setk :
    said (exec (.setk 0) State.reset) = some (some ⟨.refusedArg, 0⟩) ∧
    view (exec (.setk 1) (inPhase .counted)) (fun t => (t.resp, t.scale)) = some (some ⟨.ok, 1⟩, 1) ∧
    said (exec (.setk 1) (inPhase .encoded)) = some (some ⟨.refusedPhase, 0⟩) := by
  decide

/-- T18. -/
theorem test_cbegin_clears_the_histogram :
    view (exec .cbegin counted3) (fun t => (t.resp, t.phase, t.cnt.get [0x61], t.ntot)) =
      some (some ⟨.ok, 0⟩, .count, 0, 0) := by
  decide

/-- T25, T27. -/
theorem test_ebegin :
    view (exec .ebegin { counted3 with base := 256, scale := 8 }) (fun t => (t.resp, t.tsize, t.x)) =
      some (some ⟨.ok, 24⟩, 24, 24) := by
  decide

/-- T28: the range test at its edge. -/
theorem test_ebegin_range :
    said (exec .ebegin { State.resetFor ⟨2, 8, 8⟩ with phase := .counted, ntot := 4, base := 9 }) =
      some (some ⟨.refusedArg, 0⟩) ∧
    said (exec .ebegin { State.resetFor ⟨2, 8, 8⟩ with phase := .counted, ntot := 4, base := 8 }) =
      some (some ⟨.ok, 32⟩) := by
  decide

/-- T3; T19: counters at `2^CW - 1`. -/
theorem test_push_counts :
    view (exec (.push 0x62) { inPhase .count with w := 2, buf := [0x61] })
      (fun t => (t.resp, t.buf, t.cnt.get [0x61, 0x62], t.ntot)) = some (some ⟨.sym, 1⟩, [], 1, 1) ∧
    view (exec (.push 0x61) fullCount) (fun t => (t.resp, t.errSym, t.errIdx, t.cnt.get [0x61])) =
      some (some ⟨.fault, 5⟩, [0x61], 2, 2) := by
  decide

/-- T29; T30; T33. -/
theorem test_push_encodes :
    view (exec (.push 0x62) encoding3) (fun t => (t.resp, t.x, t.occ)) = some (some ⟨.sym, 4⟩, 4, [([0x62], 1)]) ∧
    view (exec (.push 0x63) encoding3) (fun t => (t.resp, t.x, t.errSym, t.errIdx)) =
      some (some ⟨.fault, 4⟩, 3, [0x63], 1) ∧
    view (exec (.push 0x61) fullOcc) (fun t => (t.resp, t.x, t.errIdx)) = some (some ⟨.fault, 5⟩, 5, 3) := by
  decide

/-- T32: both edges of the working interval. -/
theorem test_table_range :
    [2, 3, 5, 6].map (fun v => said (exec (.push 0x61) { encoding3 with tbl := [⟨[0x61], 1, v⟩] })) =
      [some (some ⟨.fault, 6⟩), some (some ⟨.sym, 3⟩), some (some ⟨.sym, 5⟩), some (some ⟨.fault, 6⟩)] := by
  decide

/-- T5; T11. -/
theorem test_end_counts_the_short_chunk :
    view (exec .endStream { inPhase .count with w := 2, buf := [0x0A] }) (fun t => (t.resp, t.phase, t.cnt)) =
      some (some ⟨.sym, 1⟩, .counted, [([0x0A], 1)]) ∧
    view (exec .endStream { fullCount with w := 2, buf := [0x61] }) (fun t => (t.resp, t.phase, t.buf, t.errSym)) =
      some (some ⟨.fault, 5⟩, .fault, [], [0x61]) := by
  decide

/-- T38. -/
theorem test_end_encodes_the_short_chunk :
    view (exec .endStream
        { encoding3 with w := 2, tsize := 2, x := 2, buf := [0x0A], tbl := [⟨[0x0A], 1, 3⟩, ⟨[0x61, 0x62], 1, 2⟩] })
      (fun t => (t.resp, t.phase, t.x)) = some (some ⟨.sym, 3⟩, .encoded, 3) := by
  decide

/-- T9. -/
theorem test_srcerr :
    view (exec .srcerr { inPhase .count with w := 2, buf := [0x0A], cnt := [([0x61, 0x62], 1)], ntot := 1 })
      (fun t => (t.resp, t.phase, t.buf, t.errCode, t.ntot)) =
        some (some ⟨.fault, 1⟩, .fault, [], some .sourceReadError, 1) := by
  decide

/-- T14, T15. -/
theorem test_symb :
    view (exec (.symb false 0x62) { State.reset with sop := [0x61] }) (fun t => (t.resp, t.sop)) =
      some (some ⟨.ok, 2⟩, [0x61, 0x62]) ∧
    view (exec (.symb false 0x61) { State.reset with sop := [0x61, 0x61] }) (fun t => (t.resp, t.sop)) =
      some (some ⟨.refusedArg, 0⟩, [0x61, 0x61]) ∧
    view (exec (.symb true 0x62) { State.reset with sop := [0x61, 0x61] }) (fun t => (t.resp, t.sop)) =
      some (some ⟨.ok, 1⟩, [0x62]) := by
  decide

/-- R144, T16, T17. -/
theorem test_rdcnt :
    said (exec .rdcnt { counted3 with sop := [0x61] }) = some (some ⟨.ok, 1⟩) ∧
    said (exec .rdcnt { counted3 with sop := [0x63] }) = some (some ⟨.ok, 0⟩) ∧
    said (exec .rdcnt State.reset) = some (some ⟨.refusedArg, 0⟩) ∧
    said (exec .rdcnt (inPhase .count)) = some (some ⟨.refusedPhase, 0⟩) := by
  decide

/-- T29, T37. -/
theorem test_rdocc :
    said (exec .rdocc { encoding3 with occ := [([0x62], 1)], sop := [0x62] }) = some (some ⟨.ok, 1⟩) ∧
    said (exec .rdocc encoding3) = some (some ⟨.refusedArg, 0⟩) ∧
    said (exec .rdocc { counted3 with sop := [0x62] }) = some (some ⟨.refusedPhase, 0⟩) := by
  decide

/-! ### The step -/

/-- P1, first command, from reset. -/
theorem test_step_from_reset :
    view (step (State.reset.withFetchWord 32 0x20000000)) (fun t => (t.resp, t.phase, t.inputs)) =
      some (some ⟨.ok, 0⟩, .count, []) := by
  decide

/-- T45: an illegal word in phase IDLE. -/
theorem test_step_illegal :
    view (step (State.reset.withFetchWord 32 0x22000161)) (fun t => (t.resp, t.phase)) =
      some (some ⟨.illegal, 0⟩, .idle) := by
  decide

theorem test_core_is_the_step : core.step = step ∧ core.reset = State.reset := ⟨rfl, rfl⟩

/-- The stores of the reset state are in canonical form. -/
theorem test_reset_memory_wf : Memory.wf State.reset = true := by decide

/-! ### Read-outs -/

/-- R14. -/
theorem test_pack : pack Build.default [0x61, 0x62] = 0x26162 ∧ pack Build.default [0x0A] = 0x1000A := by decide

/-- E5: 72 bits. -/
theorem test_response_word :
    dataWidth Build.default = 64 ∧
    (Response.word Build.default ⟨.sym, 5⟩).toNat = 0x010000000000000005 ∧
    (Response.word Build.default ⟨.fault, 4⟩).toNat = 0x050000000000000004 := by
  decide

/-! ### The builder -/

/-- B2, and B6 with `B = 3`. -/
theorem test_builder_b2_b6 :
    buildTable (fun _ _ => false) [([0x61], 2), ([0x62], 1)] 3 2 3 =
      .table [⟨[0x61], 2, 3⟩, ⟨[0x62], 1, 4⟩, ⟨[0x61], 3, 5⟩] ∧
    buildTable (fun _ _ => false) [([0x61], 2), ([0x62], 1)] 3 3 3 =
      .table [⟨[0x61], 2, 3⟩, ⟨[0x62], 1, 4⟩, ⟨[0x61], 3, 5⟩, ⟨[0x61], 4, 6⟩, ⟨[0x62], 2, 7⟩, ⟨[0x61], 5, 8⟩] := by
  decide

/-- B5: `tie3` ascending by byte value; B3: `tie3` "a", "b", "\n". -/
theorem test_builder_tie3 :
    buildTable (fun s t => decide (rank s < rank t)) counted3.cnt 3 2 3 =
      .table [⟨[0x0A], 1, 3⟩, ⟨[0x61], 1, 4⟩, ⟨[0x62], 1, 5⟩] ∧
    buildTable (fun s t => decide (s ≠ [0x0A]) && (t == [0x0A] || decide (rank s < rank t))) counted3.cnt 3 2 3 =
      .table [⟨[0x61], 1, 3⟩, ⟨[0x62], 1, 4⟩, ⟨[0x0A], 1, 5⟩] := by
  decide

/-- R181: a zero frequency; an empty histogram with `L >= 1`; an empty histogram with `L = 0`. -/
theorem test_builder_failures :
    buildTable (fun _ _ => false) [([0x61], 0)] 0 2 1 = .failed .degenerateDistribution ∧
    buildTable (fun _ _ => false) [] 0 2 1 = .failed .tableExhausted ∧
    buildTable (fun _ _ => false) [] 0 2 0 = .table [] := by
  decide

/-! ### The notation of the vectors -/

/-- R99, R100. -/
theorem test_assembler :
    assembleLine 2 "SYMB 1, 'a' ; comment" = some [.symb true 0x61] ∧
    assembleLine 2 "RD NTOT" = some [.rd 4] ∧
    assembleLine 2 "SETB 0x100" = some [.setb 256] ∧
    assembleLine 2 "COUNT \"ab\\n\"" = some [.cbegin, .push 0x61, .push 0x62, .push 0x0A, .endStream] ∧
    assembleLine 2 "QSYM \"ab\"" = some [.symb true 0x61, .symb false 0x62] ∧
    assembleLine 2 "QSYM \"abc\"" = none := by
  decide

/-! ### Witnesses: the hypotheses of every statement are met, clause by clause -/

theorem witness_EncodeOfDecodedWord : decode 0x300001FF = some (.symb true 0xFF) := by decide

theorem witness_IllegalWordsReplyIllegal :
    CommandWord.wellFormed 0x11000000 = true ∧ CommandWord.wellFormed 0x00000001 = false := by
  decide

theorem witness_StepRunsTheDecodedCommand :
    (presented State.reset 0x20000000).inputs = .command 0x20000000 :: [] ∧
    (presented State.reset 0x20000000).resp = none ∧ decode 0x20000000 = some .cbegin ∧
    (presented State.reset 0x20000001).inputs = .command 0x20000001 :: [] ∧ decode 0x20000001 = none := by
  decide

theorem witness_StepsOtherThanCommands :
    State.reset.inputs = [] ∧
    ({ State.reset with inputs := [.takeResponse] } : State).inputs = .takeResponse :: [] ∧
    ({ presented State.reset 0 with resp := some ⟨.ok, 0⟩ } : State).resp ≠ none ∧
    ({ counted3 with inputs := [.installTable tbl3] } : State).phase ≠ .encode ∧
    ({ encoding3 with inputs := [.installTable tbl3] } : State).phase = .encode := by
  decide

theorem witness_ResetInputGivesTheResetState :
    ({ encoding3 with inputs := [.rst], resp := some ⟨.ok, 3⟩ } : State).inputs = .rst :: [] := by
  decide

/-- A command other than `RESET` that answers a next state, in phase FAULT and in phase COUNTED. -/
theorem witness_ResetCommandRestoresEverything :
    (∃ t, Instr.nop ≠ .reset ∧ (inPhase .fault).phase = .fault ∧ exec .nop (inPhase .fault) = .next t) ∧
    (∃ t, Instr.cbegin ≠ .reset ∧ counted3.phase ≠ .idle ∧ exec .cbegin counted3 = .next t) :=
  ⟨⟨_, by decide, by decide, rfl⟩, ⟨_, by decide, by decide, rfl⟩⟩

theorem witness_RdReadsTheRegisters :
    (10 : Byte).toNat = 10 ∧ (4 : Byte).toNat = 4 ∧ counted3.phase ≠ .count ∧ counted3.phase ≠ .fault ∧
    (inPhase .count).phase = .count ∧ (inPhase .fault).phase = .fault ∧ (5 : Byte).toNat = 5 ∧ (6 : Byte).toNat = 6 ∧
    encoding3.phase = .encode ∧ (inPhase .encoded).phase = .encoded ∧ counted3.phase ≠ .encode ∧
    counted3.phase ≠ .encoded ∧ 11 ≤ (11 : Byte).toNat ∧ 11 ≤ (255 : Byte).toNat := by
  decide

/-- Widths 0, 1, `WMAX` and `WMAX + 1`, and a command that keeps the width outside phase IDLE. -/
theorem witness_SetwSetsTheWidth :
    State.reset.phase = .idle ∧ (0 : Byte).toNat = 0 ∧ 1 ≤ (1 : Byte).toNat ∧
    (2 : Byte).toNat ≤ State.reset.build.wmax ∧ State.reset.build.wmax < (3 : Byte).toNat ∧ counted3.phase ≠ .idle ∧
    Instr.setw 1 ≠ .reset ∧ ∃ t, exec (.setw 1) counted3 = .next t :=
  ⟨by decide, by decide, by decide, by decide, by decide, by decide, by decide, _, rfl⟩

theorem witness_SetbSetsTheBase :
    State.reset.phase = .idle ∧ counted3.phase = .counted ∧ (1 : Imm24).toNat < 2 ∧ 2 ≤ (2 : Imm24).toNat ∧
    encoding3.phase ≠ .idle ∧ encoding3.phase ≠ .counted ∧ Instr.setb 2 ≠ .reset ∧
    ∃ t, exec (.setb 2) encoding3 = .next t :=
  ⟨by decide, by decide, by decide, by decide, by decide, by decide, by decide, _, rfl⟩

theorem witness_SetkSetsTheScale :
    State.reset.phase = .idle ∧ counted3.phase = .counted ∧ (0 : Imm24).toNat < 1 ∧ 1 ≤ (1 : Imm24).toNat ∧
    encoding3.phase ≠ .idle ∧ encoding3.phase ≠ .counted := by
  decide

theorem witness_CbeginOpensACountPass :
    (inPhase .count).phase = .count ∧ State.reset.phase = .idle ∧ counted3.phase = .counted := by
  decide

/-- The range test at its edge (T28), and a refusal by phase. -/
theorem witness_EbeginOpensAnEncodePass :
    State.reset.phase ≠ .counted ∧ State.reset.phase ≠ .encoded ∧
    ({ State.resetFor ⟨2, 8, 8⟩ with phase := .counted, ntot := 4, base := 9 } : State).phase = .counted ∧
    2 ^ 8 < (9 : Imm24).toNat * ((8 : Imm24).toNat * 4) ∧ (8 : Imm24).toNat * ((8 : Imm24).toNat * 4) ≤ 2 ^ 8 := by
  decide

theorem witness_PushFillsTheBuffer :
    State.reset.phase ≠ .count ∧ State.reset.phase ≠ .encode ∧ (inPhase .count).phase = .count ∧
    ({ inPhase .count with w := 2 } : State).buf.length + 1 < ({ inPhase .count with w := 2 } : State).w.toNat := by
  decide

theorem witness_EndClosesAPass :
    State.reset.phase ≠ .count ∧ State.reset.phase ≠ .encode ∧ (inPhase .count).phase = .count ∧
    (inPhase .count).buf = [] ∧ encoding3.phase = .encode ∧ encoding3.buf = [] := by
  decide

theorem witness_PushCountsTheSymbol :
    (inPhase .count).phase = .count ∧ (inPhase .count).w.toNat ≤ (inPhase .count).buf.length + 1 ∧
    (inPhase .count).ntot ≠ 2 ^ (inPhase .count).build.cw - 1 ∧
    fullCount.phase = .count ∧ fullCount.w.toNat ≤ fullCount.buf.length + 1 ∧
    fullCount.ntot = 2 ^ fullCount.build.cw - 1 := by
  decide

theorem witness_EndCountsTheShortSymbol :
    ({ fullCount with w := 2, buf := [0x61], ntot := 2 } : State).buf ≠ [] ∧ 2 ≠ 2 ^ fullCount.build.cw - 1 ∧
    ({ fullCount with w := 2, buf := [0x61] } : State).phase = .count ∧
    fullCount.ntot = 2 ^ fullCount.build.cw - 1 := by
  decide

/-- A full counter; an absent key; a slot at each edge of the interval `[3, 6)`. -/
theorem witness_PushEncodesTheSymbol :
    fullOcc.phase = .encode ∧ fullOcc.w.toNat ≤ fullOcc.buf.length + 1 ∧
    fullOcc.occ.get [0x61] = 2 ^ fullOcc.build.cw - 1 ∧
    encoding3.phase = .encode ∧ encoding3.w.toNat ≤ encoding3.buf.length + 1 ∧
    encoding3.occ.get [0x61] ≠ 2 ^ encoding3.build.cw - 1 ∧ encoding3.tbl.read [0x63] 1 = none ∧
    encoding3.tbl.read [0x61] 1 = some 3 ∧ encoding3.tbl.read [0x0A] 1 = some 5 ∧
    encoding3.tsize ≤ 3 ∧ 5 < encoding3.base.toNat * encoding3.tsize ∧
    2 < encoding3.tsize ∧ encoding3.base.toNat * encoding3.tsize ≤ 6 ∧
    Table.read [⟨[0x61], 1, 6⟩] [0x61] 1 = some 6 := by
  decide

theorem witness_EndEncodesTheShortSymbol :
    ({ encoding3 with w := 2, buf := [0x61] } : State).phase = .encode ∧
    ({ encoding3 with w := 2, buf := [0x61] } : State).buf ≠ [] ∧
    fullOcc.occ.get [0x61] = 2 ^ fullOcc.build.cw - 1 ∧ encoding3.occ.get [0x61] ≠ 2 ^ encoding3.build.cw - 1 ∧
    encoding3.tbl.read [0x63] 1 = none ∧ encoding3.tbl.read [0x61] 1 = some 3 ∧ encoding3.tsize ≤ 3 ∧
    3 < encoding3.base.toNat * encoding3.tsize ∧ Table.read [⟨[0x61], 1, 2⟩] [0x61] 1 = some 2 ∧
    2 < encoding3.tsize := by
  decide

theorem witness_SrcerrFaultsThePass :
    State.reset.phase ≠ .count ∧ State.reset.phase ≠ .encode ∧ (inPhase .count).phase = .count ∧
    encoding3.phase = .encode := by
  decide

theorem witness_SymbBuildsTheOperand :
    (inPhase .fault).phase = .fault ∧ State.reset.phase ≠ .fault ∧
    ({ State.reset with sop := [1, 2] } : State).sop.length = State.reset.build.wmax ∧
    ({ State.reset with sop := [1] } : State).sop.length ≠ State.reset.build.wmax ∧
    Instr.cbegin ≠ .reset ∧ (∀ f c, Instr.cbegin ≠ .symb f c) ∧ ∃ t, exec .cbegin State.reset = .next t :=
  ⟨by decide, by decide, by decide, by decide, by decide, by simp, _, rfl⟩

theorem witness_RdoccReadsTheOccurrences :
    counted3.phase ≠ .encode ∧ counted3.phase ≠ .encoded ∧ encoding3.phase = .encode ∧ encoding3.sop = [] ∧
    (inPhase .encoded).phase = .encoded ∧ ({ encoding3 with sop := [0x61] } : State).sop ≠ [] := by
  decide

theorem witness_ReadCommandsChangeOnlyTheResponse :
    ∃ t, (Instr.rdcnt = .nop ∨ (∃ r, Instr.rdcnt = .rd r) ∨ Instr.rdcnt = .rdcnt ∨ Instr.rdcnt = .rdocc) ∧
      exec .rdcnt { counted3 with sop := [0x61] } = .next t :=
  ⟨_, .inr (.inr (.inl rfl)), rfl⟩

theorem witness_ConfigurationCommandsFrame :
    (∃ t, exec (.setw 2) State.reset = .next t) ∧ (∃ t, exec (.setb 2) State.reset = .next t) ∧
    (∃ t, exec (.setk 1) State.reset = .next t) ∧ (∃ t, exec (.symb true 0x61) State.reset = .next t) :=
  ⟨⟨_, rfl⟩, ⟨_, rfl⟩, ⟨_, rfl⟩, ⟨_, rfl⟩⟩

/-- In each phase of a pass, with a symbol completed, and another symbol that the frame speaks of. -/
theorem witness_StreamCommandsFrame :
    (∃ t, exec (.push 0x62) encoding3 = .next t ∧ encoding3.phase ≠ .count) ∧
    (∃ t, exec (.push 0x61) (inPhase .count) = .next t ∧ (inPhase .count).phase = .count) ∧
    (∃ t, exec .srcerr encoding3 = .next t ∧ ∀ d, t.resp ≠ some ⟨.sym, d⟩) ∧
    encoding3.cnt.wf = true ∧ encoding3.occ.wf = true ∧ ([0x61] : Sys2Proof.Symbol) ≠ encoding3.buf ++ [0x62] :=
  ⟨⟨_, rfl, by decide⟩, ⟨_, rfl, by decide⟩, ⟨_, rfl, fun _ h => by injection h with h; injection h with h; cases h⟩,
    by decide, by decide, by decide⟩

theorem witness_PassOpeningAndPortsFrame :
    (∃ t, exec .cbegin counted3 = .next t) ∧ (∃ t, exec .ebegin counted3 = .next t) := ⟨⟨_, rfl⟩, ⟨_, rfl⟩⟩

/-- Every register is changed by some command. -/
theorem witness_EachRegisterHasItsWriters :
    view (exec (.setw 2) State.reset) (fun t => decide (t.w ≠ State.reset.w)) = some true ∧
    view (exec (.setb 2) State.reset) (fun t => decide (t.base ≠ State.reset.base)) = some true ∧
    view (exec (.setk 1) State.reset) (fun t => decide (t.scale ≠ State.reset.scale)) = some true ∧
    view (exec .ebegin counted3) (fun t => decide (t.tsize ≠ 0 ∧ t.x ≠ 0 ∧ t.phase ≠ .counted)) = some true ∧
    view (exec (.push 0x61) (inPhase .count)) (fun t => decide (t.cnt ≠ [] ∧ t.ntot ≠ 0)) = some true ∧
    view (exec (.push 0x61) encoding3) (fun t => decide (t.occ ≠ [])) = some true ∧
    view (exec (.push 0x61) { inPhase .count with w := 2 }) (fun t => decide (t.buf ≠ [])) = some true ∧
    view (exec (.symb true 0x61) State.reset) (fun t => decide (t.sop ≠ [])) = some true ∧
    view (exec .srcerr encoding3) (fun t => decide (t.errCode ≠ none)) = some true := by
  decide

/-- A command out of its phase; one that faults; `EBEGIN` refused for range. -/
theorem witness_PhaseTable :
    State.reset.phase ∉ listedPhases .rdocc ∧ encoding3.phase ∈ listedPhases (.push 0x63) ∧
    said (exec (.push 0x63) encoding3) = some (some ⟨.fault, 4⟩) ∧
    Phase.counted ∈ listedPhases .ebegin ∧
    said (exec .ebegin { State.resetFor ⟨2, 8, 8⟩ with phase := .counted, ntot := 4, base := 9 }) =
      some (some ⟨.refusedArg, 0⟩) := by
  decide

/-- The three refusals. -/
theorem witness_RefusalsChangeNothing :
    said (runWord 0x22000061 State.reset) = some (some ⟨.refusedPhase, 0⟩) ∧
    said (runWord 0x10000000 State.reset) = some (some ⟨.refusedArg, 0⟩) ∧
    said (runWord 0x22000161 State.reset) = some (some ⟨.illegal, 0⟩) ∧
    [Status.refusedPhase, .refusedArg, .illegal].all Status.isRefusal = true := by
  decide

theorem witness_FaultEntryWritesTheReport :
    (∃ t, exec .srcerr encoding3 = .next t ∧ t.resp = some ⟨.fault, 1⟩) ∧
    (∃ t, exec (.push 0x63) encoding3 = .next t ∧ t.resp = some ⟨.fault, 4⟩) ∧
    (∃ t, exec (.push 0x61) fullOcc = .next t ∧ t.resp = some ⟨.fault, 5⟩) ∧
    (∃ t, exec (.push 0x61) { encoding3 with tbl := [⟨[0x61], 1, 6⟩] } = .next t ∧ t.resp = some ⟨.fault, 6⟩) :=
  ⟨⟨_, rfl, rfl⟩, ⟨_, rfl, rfl⟩, ⟨_, rfl, rfl⟩, ⟨_, rfl, rfl⟩⟩

theorem witness_OnlyResetLeavesFault :
    (∃ t, (inPhase .fault).phase = .fault ∧ Instr.cbegin ≠ .reset ∧ exec .cbegin (inPhase .fault) = .next t) ∧
    (∃ t, step (presented (inPhase .fault) 0x20000000) = .next t ∧
      (∀ rest, (presented (inPhase .fault) 0x20000000).inputs ≠ .rst :: rest) ∧
      (∀ rest, (presented (inPhase .fault) 0x20000000).inputs ≠ .command 0x01000000 :: rest)) :=
  ⟨⟨_, rfl, by decide, rfl⟩, _, rfl, by simp [presented], by simp [presented]⟩

theorem witness_NextStateIgnoresX :
    ∃ t t', Instr.push 0x62 ≠ .rd 6 ∧ exec (.push 0x62) encoding3 = .next t ∧
      exec (.push 0x62) { encoding3 with x := 5 } = .next t' ∧ encoding3.phase = .encode ∧ t.resp = some ⟨.sym, 4⟩ :=
  ⟨_, _, by decide, rfl, rfl, rfl, rfl⟩

/-- Two tables that agree at the key `("b", 1)` alone. -/
theorem witness_OneTableReadPerSymbol :
    Table.read [⟨[0x62], 1, 4⟩] (encoding3.buf ++ [0x62]) (encoding3.occ.get (encoding3.buf ++ [0x62]) + 1) =
      encoding3.tbl.read (encoding3.buf ++ [0x62]) (encoding3.occ.get (encoding3.buf ++ [0x62]) + 1) ∧
    (∃ t, exec (.push 0x62) encoding3 = .next t) ∧
    ∃ t, exec (.push 0x62) { encoding3 with tbl := [⟨[0x62], 1, 4⟩] } = .next t :=
  ⟨by decide, ⟨_, rfl⟩, ⟨_, rfl⟩⟩

theorem witness_InvariantHoldsAtReset : Build.default.Legal ∧ Build.Legal ⟨1, 1, 1⟩ ∧ Build.Legal ⟨255, 1, 1⟩ := by
  decide

/-- A state of an encode pass meets the invariant. -/
theorem encoding3_inv : StateInv encoding3 where
  config := by decide
  buffers := by decide
  histogram := by decide
  occurrences := by decide
  encoder := by decide
  report := by decide
  response := by intro r h; cases h
  table := by decide

/-- A state after a count pass meets the invariant. -/
theorem counted3_inv : StateInv counted3 where
  config := by decide
  buffers := by decide
  histogram := by decide
  occurrences := by decide
  encoder := by decide
  report := by decide
  response := by intro r h; cases h
  table := by decide

theorem builtTable_inv : StateInv builtTable where
  config := by decide
  buffers := by decide
  histogram := by decide
  occurrences := by decide
  encoder := by decide
  report := by decide
  response := by intro r h; cases h
  table := by decide

theorem witness_EveryStepKeepsTheInvariant :
    StateInv { encoding3 with inputs := [.command 0x22000062] } ∧
      ∃ t, step { encoding3 with inputs := [.command 0x22000062] } = .next t :=
  ⟨⟨encoding3_inv.config, encoding3_inv.buffers, encoding3_inv.histogram, encoding3_inv.occurrences,
    encoding3_inv.encoder, encoding3_inv.report, encoding3_inv.response, encoding3_inv.table⟩, _, rfl⟩

theorem witness_RdcntReadsTheCount :
    (inPhase .count).phase = .count ∧ (inPhase .fault).phase = .fault ∧ counted3.phase ≠ .count ∧
    counted3.phase ≠ .fault ∧ counted3.sop = [] ∧ ({ counted3 with sop := [0x61] } : State).sop ≠ [] ∧
    StateInv State.reset ∧ State.reset.phase = .idle :=
  ⟨by decide, by decide, by decide, by decide, by decide, by decide,
    ⟨by decide, by decide, by decide, by decide, by decide, by decide, fun r h => by (cases h), by decide⟩, by decide⟩

/-- The states after some steps are reachable. -/
def steps : Nat → State → Result
  | 0, s => .next s
  | n + 1, s =>
    match step s with
    | .next t => steps n t
    | .fault f => .fault f
    | .refused r => .refused r

theorem reachable_steps (n : Nat) {s t : State} (hs : Reachable s) (h : steps n s = .next t) : Reachable t := by
  induction n generalizing s with
  | zero => injection h with h; exact h ▸ hs
  | succ n ih =>
    simp only [steps] at h
    split at h
    · exact ih (hs.step ‹_›) h
    · cases h
    · cases h

/-- The commands of a pass over nothing, or over the byte `a`, up to `EBEGIN` (R285). -/
def toEncode (bytes : List Byte) : List PortEvent :=
  [.command 0x20000000, .takeResponse] ++ (bytes.map (fun b => [.command (encode (.push b)), .takeResponse])).flatten ++
    [.command 0x23000000, .takeResponse, .command 0x21000000]

/-- Phase ENCODE is reached with `TSIZE >= 1` and with `TSIZE = 0`. -/
theorem witness_StateStaysInTheWorkingInterval :
    (∃ s, Reachable s ∧ s.phase = .encode ∧ 1 ≤ s.tsize) ∧ (∃ s, Reachable s ∧ s.phase = .encode ∧ s.tsize = 0) :=
  ⟨⟨_, reachable_steps 7 (.reset Build.default (toEncode [0x61]) (by decide)) rfl, by decide, by decide⟩,
    ⟨_, reachable_steps 5 (.reset Build.default (toEncode []) (by decide)) rfl, by decide, by decide⟩⟩

/-- Inside a pass and outside one. -/
theorem witness_BufferShorterThanTheWidth :
    (∃ s, Reachable s ∧ s.phase = .count) ∧ (∃ s, Reachable s ∧ s.phase ≠ .count ∧ s.phase ≠ .encode) :=
  ⟨⟨_, reachable_steps 1 (.reset Build.default (toEncode []) (by decide)) rfl, by decide⟩,
    ⟨_, .reset Build.default [] (by decide), by decide, by decide⟩⟩

theorem witness_EncoderResultsAndReportByPhase :
    (∃ s, Reachable s ∧ s.phase = .idle) ∧ (∃ s, Reachable s ∧ s.phase = .count) ∧
    (∃ s, Reachable s ∧ s.phase = .counted) ∧ ∃ s, Reachable s ∧ s.phase = .fault :=
  ⟨⟨_, .reset Build.default [] (by decide), by decide⟩,
    ⟨_, reachable_steps 1 (.reset Build.default (toEncode []) (by decide)) rfl, by decide⟩,
    ⟨_, reachable_steps 3 (.reset Build.default (toEncode []) (by decide)) rfl, by decide⟩,
    ⟨_, reachable_steps 3
      (.reset Build.default [.command 0x20000000, .takeResponse, .command 0x24000000] (by decide)) rfl, by decide⟩⟩

theorem witness_OccurrencesSumToTheSymbolsEncoded :
    encoding3.occ.wf = true ∧ encoding3.phase = .encode ∧
    (∃ t, exec (.push 0x62) encoding3 = .next t ∧ t.resp.map Response.status = some .sym) ∧
    ∃ t, exec .ebegin counted3 = .next t ∧ t.resp.map Response.status = some .ok :=
  ⟨by decide, by decide, ⟨_, rfl, rfl⟩, ⟨_, rfl, rfl⟩⟩

theorem witness_RegistersFitTheirWidths : Reachable State.reset := .reset Build.default [] (by decide)

/-- There is a reachable state that has counted something, and the set of all symbols of `Sym(WMAX)` is finite. -/
theorem witness_FrequencyConservation :
    (∃ s, Reachable s ∧ s.ntot = 1) ∧
    ∀ n : Nat, ∃ syms : Finset Sys2Proof.Symbol, ∀ y, y ∈ syms ↔ 1 ≤ y.length ∧ y.length ≤ n := by
  refine ⟨⟨_, reachable_steps 3 (.reset Build.default (toEncode [0x61]) (by decide)) rfl, by decide⟩, fun n => ?_⟩
  have : Finite Byte := Finite.of_injective BitVec.toFin fun a b h => BitVec.eq_of_toFin_eq h
  refine ⟨(List.finite_length_le Byte n).toFinset.filter (fun y => 1 ≤ y.length), fun y => ?_⟩
  simp [and_comm]

theorem witness_EqualReadingsAreEqualArrays :
    Counters.wf [([0x0A], 1), ([0x61, 0x62], 1)] = true ∧ ∀ y, Counters.get counted3.cnt y = counted3.cnt.get y :=
  ⟨by decide, fun _ => rfl⟩

theorem witness_ResponseWordLosesNothing :
    StateInv encoding3 ∧ ∃ t, exec (.push 0x62) encoding3 = .next t ∧ t.resp = some ⟨.sym, 4⟩ :=
  ⟨encoding3_inv, _, rfl, rfl⟩

/-- Two symbols of the greatest length. -/
theorem witness_PackIsInjective :
    ([0x61, 0x62] : Sys2Proof.Symbol).length ≤ Build.default.wmax ∧
    pack Build.default [0x61, 0x62] = pack Build.default [0x61, 0x62] := by
  decide

/-- Streams of length a multiple of the width, and not. -/
theorem witness_ChunksReproduceTheStream :
    1 ≤ 2 ∧ chunks 2 [0x61, 0x62, 0x0A] = [[0x61, 0x62], [0x0A]] ∧
    (chunks 2 [0x61, 0x62, 0x0A]).getLast? = some [0x0A] ∧ [0x61, 0x62] ∈ (chunks 2 [0x61, 0x62, 0x0A]).dropLast ∧
    (chunks 2 [0x61, 0x62]).getLast? = some [0x61, 0x62] := by
  decide

/-- The empty stream, and one symbol. -/
theorem witness_CountPassCountsTheChunks :
    StateInv counted3 ∧ counted3.phase.mayCount = true ∧
    (chunks counted3.w.toNat []).length ≤ 2 ^ counted3.build.cw - 1 ∧
    (chunks counted3.w.toNat [0x61]).length ≤ 2 ^ counted3.build.cw - 1 :=
  ⟨counted3_inv, by decide, by decide, by decide⟩

/-- T20 with `"ab"` and `"ba"`. -/
theorem witness_CountsIgnoreTheOrder :
    ∃ t t', StateInv counted3 ∧ counted3.phase.mayCount = true ∧
      (chunks counted3.w.toNat [0x61, 0x62]).Perm (chunks counted3.w.toNat [0x62, 0x61]) ∧
      runCommands (countPass [0x61, 0x62]) counted3 = .next t ∧
      runCommands (countPass [0x62, 0x61]) counted3 = .next t' ∧ t.phase = .counted ∧ t'.phase = .counted :=
  ⟨_, _, counted3_inv, by decide, by decide, rfl, rfl, rfl, rfl⟩

/-- P3, steps 10 to 14: every slot of the interval is used; and the empty stream. -/
theorem witness_EncodePassWalksTheTable :
    StateInv counted3 ∧ counted3.phase.mayEncode = true ∧
    counted3.base.toNat * (counted3.scale.toNat * counted3.ntot) ≤ 2 ^ counted3.build.sw ∧
    slotWalk counted3.tbl [] (chunks counted3.w.toNat [0x61, 0x62, 0x0A]) = some [3, 4, 5] ∧
    (∀ v ∈ [3, 4, 5], counted3.scale.toNat * counted3.ntot ≤ v ∧
      v < counted3.base.toNat * (counted3.scale.toNat * counted3.ntot)) ∧
    (∀ y, (chunks counted3.w.toNat [0x61, 0x62, 0x0A]).count y ≤ 2 ^ counted3.build.cw - 1) ∧
    slotWalk counted3.tbl [] (chunks counted3.w.toNat []) = some [] :=
  ⟨counted3_inv, by decide, by decide, by decide, by decide,
    fun _ => List.count_le_length.trans (by decide), by decide⟩

/-- B2. -/
theorem witness_BuilderGivesASpreadTable :
    Counters.wf [([0x61], 2), ([0x62], 1)] = true ∧ 2 ≤ 2 ∧
    ∃ es, buildTable (fun _ _ => false) [([0x61], 2), ([0x62], 1)] 3 2 3 = .table es :=
  ⟨by decide, by decide, _, rfl⟩

/-- B2: a symbol with keys and one with none. -/
theorem witness_BuilderKeysStartAtTheFrequency :
    Counters.wf [([0x61], 2), ([0x62], 1)] = true ∧ Counters.get [([0x61], 2), ([0x62], 1)] [0x63] = 0 ∧
    ∃ es, buildTable (fun _ _ => false) [([0x61], 2), ([0x62], 1)] 3 2 3 = .table es :=
  ⟨by decide, by decide, _, rfl⟩

theorem witness_BuilderGivesEachSymbolItsShare :
    Counters.wf [([0x61], 2), ([0x62], 1)] = true ∧ Counters.wf [] = true ∧ 2 ≤ 2 ∧ 1 ≤ 1 := by
  decide

theorem witness_BuilderNeverFailsOnAHistogram : StateInv counted3 ∧ StateInv State.reset :=
  ⟨counted3_inv, witness_RdcntReadsTheCount.2.2.2.2.2.2.1⟩

/-- T31. -/
theorem witness_RepeatedSymbolFaultsOnABuiltTable :
    ∃ es, StateInv builtTable ∧ builtTable.phase = .encode ∧ hostBuild (fun _ _ => false) builtTable = .table es ∧
      builtTable.tbl = Table.ofEntries es ∧ builtTable.buf.length + 1 = builtTable.w.toNat ∧
      2 ≤ builtTable.cnt.get (builtTable.buf ++ [0x61]) ∧ builtTable.occ.get (builtTable.buf ++ [0x61]) = 0 :=
  ⟨_, builtTable_inv, by decide, rfl, by decide, by decide, by decide, by decide⟩

end Sys2Proof.Tests
end

section
/-! SUPPORT. Numbers against their widths: the response data (R8), `pack` (R14), the counters (R8), the response word
(R95); the step by its port event, and the table as a listing. -/

namespace Sys2Proof.Machine

/-! ### Widths of the response data (R8, R14, R37) -/

theorem two_pow_cw_le_dataWidth (b : Build) : 2 ^ b.cw ≤ 2 ^ dataWidth b :=
  Nat.pow_le_pow_right (by decide) (by simp [dataWidth])

theorem two_pow_sw_le_dataWidth (b : Build) : 2 ^ b.sw ≤ 2 ^ dataWidth b :=
  Nat.pow_le_pow_right (by decide) (by simp [dataWidth])

theorem two_pow_pack_le_dataWidth (b : Build) : 2 ^ (8 * b.wmax + 8) ≤ 2 ^ dataWidth b :=
  Nat.pow_le_pow_right (by decide) (by simp [dataWidth])

theorem two_pow_24_le_dataWidth (b : Build) : 2 ^ 24 ≤ 2 ^ dataWidth b :=
  Nat.pow_le_pow_right (by decide) (by simp [dataWidth])

theorem lt_dataWidth_of_lt_24 (b : Build) {n : Nat} (h : n < 2 ^ 24) : n < 2 ^ dataWidth b :=
  h.trans_le (two_pow_24_le_dataWidth b)

theorem lt_dataWidth_of_lt_sw {b : Build} {n : Nat} (h : n < 2 ^ b.sw) : n < 2 ^ dataWidth b :=
  h.trans_le (two_pow_sw_le_dataWidth b)

theorem le_counterMax_iff (b : Build) (n : Nat) : n ≤ counterMax b ↔ n < 2 ^ b.cw := by
  have : 0 < 2 ^ b.cw := Nat.two_pow_pos _
  unfold counterMax
  omega

theorem lt_dataWidth_of_le_counterMax {b : Build} {n : Nat} (h : n ≤ counterMax b) : n < 2 ^ dataWidth b :=
  ((le_counterMax_iff b n).1 h).trans_le (two_pow_cw_le_dataWidth b)

theorem FaultKind.code_lt_dataWidth (f : FaultKind) (b : Build) : f.code < 2 ^ dataWidth b :=
  lt_dataWidth_of_lt_24 b (by cases f <;> decide)

theorem Phase.code_le_five (p : Phase) : p.code ≤ 5 := by
  cases p <;> decide

/-- A byte string is the base-256 numeral of its bytes, the last one the least significant (R14). -/
theorem bigEndian_eq_ofDigits (y : Symbol) : bigEndian y = Nat.ofDigits 256 (y.reverse.map BitVec.toNat) := by
  rw [Nat.ofDigits_eq_foldr, List.foldr_map, List.foldr_reverse]
  simp [bigEndian, Nat.mul_comm, Nat.add_comm]

theorem bigEndian_cons (a : Byte) (y : Symbol) : bigEndian (a :: y) = a.toNat * 256 ^ y.length + bigEndian y := by
  simp only [bigEndian_eq_ofDigits, List.reverse_cons, List.map_append, Nat.ofDigits_append]
  simp [Nat.mul_comm, Nat.add_comm]

theorem byte_digits_lt (y : Symbol) : ∀ d ∈ y.reverse.map BitVec.toNat, d < 256 := by
  intro d hd
  obtain ⟨a, -, rfl⟩ := List.mem_map.1 hd
  exact a.isLt

theorem bigEndian_lt (y : Symbol) : bigEndian y < 256 ^ y.length := by
  simpa [bigEndian_eq_ofDigits] using Nat.ofDigits_lt_base_pow_length (by decide) (byte_digits_lt y)

theorem bigEndian_lt_of_length_le {y : Symbol} {n : Nat} (h : y.length ≤ n) : bigEndian y < 2 ^ (8 * n) := by
  calc bigEndian y < 256 ^ y.length := bigEndian_lt y
    _ ≤ 256 ^ n := Nat.pow_le_pow_right (by decide) h
    _ = 2 ^ (8 * n) := by rw [Nat.pow_mul]

theorem bigEndian_injective_of_length {y z : Symbol} (hl : y.length = z.length) (h : bigEndian y = bigEndian z) :
    y = z := by
  rw [bigEndian_eq_ofDigits, bigEndian_eq_ofDigits] at h
  have hd := Nat.ofDigits_inj_of_len_eq (by decide) (by simpa using hl) (byte_digits_lt y) (byte_digits_lt z) h
  exact List.reverse_injective (List.map_injective_iff.2 (fun _ _ => BitVec.eq_of_toNat_eq) hd)

theorem bigEndian_eq_sum (y : Symbol) :
    bigEndian y = ∑ i ∈ Finset.range y.length, (y.getD i 0).toNat * 256 ^ (y.length - 1 - i) := by
  induction y with
  | nil => rfl
  | cons a y ih =>
    rw [bigEndian_cons, ih, List.length_cons, Finset.sum_range_succ', Nat.add_comm]
    simp [Nat.sub_sub, Nat.add_comm]

/-- `pack` of a symbol of at most `WMAX` bytes fits its field, `8 * WMAX + 8` bits (R8). -/
theorem pack_lt_dataWidth {b : Build} {y : Symbol} (hb : b.wmax ≤ 255) (hy : y.length ≤ b.wmax) :
    pack b y < 2 ^ dataWidth b := by
  have hlow := bigEndian_lt_of_length_le hy
  calc pack b y < (y.length + 1) * 2 ^ (8 * b.wmax) := by unfold pack; linarith
    _ ≤ 2 ^ 8 * 2 ^ (8 * b.wmax) := Nat.mul_le_mul_right _ (by omega)
    _ = 2 ^ (8 * b.wmax + 8) := by ring
    _ ≤ 2 ^ dataWidth b := two_pow_pack_le_dataWidth b

theorem pack_div {b : Build} {y : Symbol} (hy : y.length ≤ b.wmax) : pack b y / 2 ^ (8 * b.wmax) = y.length := by
  rw [pack, Nat.mul_comm, Nat.mul_add_div (Nat.two_pow_pos _), Nat.div_eq_of_lt (bigEndian_lt_of_length_le hy),
    Nat.add_zero]

theorem pack_injective {b : Build} {y z : Symbol} (hy : y.length ≤ b.wmax) (hz : z.length ≤ b.wmax)
    (h : pack b y = pack b z) : y = z := by
  have hl : y.length = z.length := by
    rw [← pack_div hy, h, pack_div hz]
  exact bigEndian_injective_of_length hl (by simpa [pack, hl] using h)

/-- The two parts of a response word do not overlap (R95). -/
theorem response_word_toNat {b : Build} {r : Response} (hr : r.data < 2 ^ dataWidth b) :
    (r.word b).toNat = r.status.code * 2 ^ dataWidth b + r.data := by
  have hst : r.status.code < 2 ^ 8 := by cases r.status <;> decide
  rw [Response.word, toNat_append_eq, BitVec.toNat_ofNat, BitVec.toNat_ofNat, Nat.mod_eq_of_lt hst,
    Nat.mod_eq_of_lt hr]

/-! ### The step by the next port event -/

theorem step_waiting {s : State} (h : s.inputs = []) : step s = .next s := by
  rw [step, stepPorts, h]

theorem step_event {s : State} {e : PortEvent} {rest : List PortEvent} (h : s.inputs = e :: rest) :
    step s = handle e (s.setInputs rest) := by
  rw [step, stepPorts, h]

/-! ### The table as a listing -/

/-- The table reads the first entry of its list at a key. -/
theorem Table.read_eq_find (t : Table) (y : Symbol) (k : Nat) :
    t.read y k = (t.find? (fun e => e.sym = y ∧ e.idx = k)).map TableEntry.slot := by
  induction t with
  | nil => rfl
  | cons e rest ih =>
    rw [Table.read_cons, List.find?_cons]
    by_cases he : e.sym = y ∧ e.idx = k
    · simp [he, (TableEntry.isAt_iff e y k).2 he]
    · simp [he, mt (TableEntry.isAt_iff e y k).1 he, ih]

end Sys2Proof.Machine
end

section
/-! SUPPORT. The invariant `StateInv`: every named update keeps it under its own premise, so every command and every step keeps
it (R8, R34, R41 to R44, R95, R164). -/

namespace Sys2Proof.Machine

/-! ### Cells of an array whose listed cells obey a bound -/

theorem Counters.get_le_counterMax {c : Counters} {b : Build} (h : countersFit c b) (y : Symbol) :
    c.get y ≤ counterMax b := by
  by_cases hy : c.get y = 0
  · omega
  · exact h _ (Counters.mem_of_get hy)

theorem symbolsWithin_set {c : Counters} {n : Nat} (h : symbolsWithin c n) {y : Symbol} (h1 : 1 ≤ y.length)
    (hn : y.length ≤ n) (v : Nat) : symbolsWithin (c.set y v) n := by
  intro e he
  rcases Counters.mem_set he with rfl | he
  · exact ⟨h1, hn⟩
  · exact h e he

theorem countersFit_set {c : Counters} {b : Build} (h : countersFit c b) {v : Nat} (hv : v ≤ counterMax b)
    (y : Symbol) : countersFit (c.set y v) b := by
  intro e he
  rcases Counters.mem_set he with rfl | he
  · exact hv
  · exact h e he

/-! ### Phases -/

theorem Phase.not_encoding_of_configurable {p : Phase} (h : p.configurable = true) :
    ¬ (p = .encode ∨ p = .encoded) := by
  rcases (Phase.configurable_iff p).1 h with rfl | rfl <;> decide

theorem Phase.afterEnd_ne (p : Phase) : p.afterEnd ≠ .idle ∧ p.afterEnd ≠ .fault := by
  unfold Phase.afterEnd
  split <;> decide

/-! ### Reset -/

theorem stateInv_resetFor {b : Build} (hb : b.Legal) : StateInv (State.resetFor b) where
  config := ⟨hb, by simp [State.resetFor], hb.1, by simp [State.resetFor], by simp [State.resetFor]⟩
  buffers := ⟨by simp [State.resetFor], fun _ => rfl, Nat.zero_le _⟩
  histogram := ⟨rfl, by simp [State.resetFor], rfl, Nat.zero_le _, fun _ => rfl⟩
  occurrences := ⟨rfl, by simp [State.resetFor], by simp [State.resetFor]⟩
  encoder := ⟨fun _ => ⟨rfl, rfl, rfl⟩, by simp [State.resetFor], Nat.two_pow_pos _, Nat.two_pow_pos _⟩
  report := ⟨by simp [State.resetFor], fun _ => ⟨rfl, rfl⟩, nofun, nofun, Nat.zero_le _, Nat.zero_le _⟩
  response := nofun
  table := rfl

namespace StateInv

variable {s : State} (h : StateInv s)
include h

/-! ### What the invariant says of single registers -/

theorem build_legal : s.build.Legal := by
  obtain ⟨hb, -⟩ := h.config
  exact hb

theorem w_pos : 1 ≤ s.w.toNat := by
  obtain ⟨-, hw, -⟩ := h.config
  exact hw

theorem wmax_le : s.build.wmax ≤ 255 := by
  obtain ⟨-, hw, -⟩ := h.build_legal
  exact hw

theorem w_le_wmax : s.w.toNat ≤ s.build.wmax := by
  obtain ⟨-, -, hw, -⟩ := h.config
  exact hw

theorem buf_length_lt : s.buf.length < s.w.toNat := by
  obtain ⟨hb, -⟩ := h.buffers
  exact hb

theorem buf_nil_of_closed (hp : s.phase.inPass = false) : s.buf = [] := by
  obtain ⟨-, hb, -⟩ := h.buffers
  exact hb hp

theorem errCode_none (hp : s.phase ≠ .fault) : s.errCode = none := by
  obtain ⟨hc, -⟩ := h.report
  exact hc.2 hp

/-- Outside FAULT the report is clear, and it stays legal in every other such phase. -/
theorem report_setPhase {p : Phase} (hs : s.phase ≠ .fault) (hp : p ≠ .fault) : reportLegal (s.setPhase p) := by
  obtain ⟨-, hrest⟩ := h.report
  exact ⟨iff_of_true (h.errCode_none hs) hp, hrest⟩

theorem cnt_get_le_ntot (y : Symbol) : s.cnt.get y ≤ s.ntot := by
  obtain ⟨-, -, htot, -⟩ := h.histogram
  exact htot ▸ Counters.get_le_total s.cnt y

theorem ntot_le : s.ntot ≤ counterMax s.build := by
  obtain ⟨-, -, -, hn, -⟩ := h.histogram
  exact hn

theorem cnt_get_le (y : Symbol) : s.cnt.get y ≤ counterMax s.build := (h.cnt_get_le_ntot y).trans h.ntot_le

theorem occ_get_le (y : Symbol) : s.occ.get y ≤ counterMax s.build := by
  obtain ⟨-, -, hfit⟩ := h.occurrences
  exact Counters.get_le_counterMax hfit y

theorem tsize_lt : s.tsize < 2 ^ s.build.sw := by
  obtain ⟨-, -, ht, -⟩ := h.encoder
  exact ht

theorem x_lt : s.x < 2 ^ s.build.sw := by
  obtain ⟨-, -, -, hx⟩ := h.encoder
  exact hx

theorem sop_length_le : s.sop.length ≤ s.build.wmax := by
  obtain ⟨-, -, hsop⟩ := h.buffers
  exact hsop

theorem errSym_length_le : s.errSym.length ≤ s.build.wmax := by
  obtain ⟨-, -, -, -, hy, -⟩ := h.report
  exact hy

theorem errIdx_le : s.errIdx ≤ counterMax s.build := by
  obtain ⟨-, -, -, -, -, hk⟩ := h.report
  exact hk

theorem statusValue_lt : statusValue s < 2 ^ 24 := by
  obtain ⟨hbuf, -, hsop⟩ := h.buffers
  have := s.phase.code_le_five
  have := h.w_le_wmax
  have := h.wmax_le
  unfold statusValue
  omega

/-- No register is wider than the response data (R8). -/
theorem registerValue_lt (r : Register) : registerValue r s < 2 ^ dataWidth s.build := by
  cases r with
  | status => exact lt_dataWidth_of_lt_24 _ h.statusValue_lt
  | w => exact lt_dataWidth_of_lt_24 _ (s.w.isLt.trans (by decide))
  | base => exact lt_dataWidth_of_lt_24 _ s.base.isLt
  | scale => exact lt_dataWidth_of_lt_24 _ s.scale.isLt
  | ntot => exact lt_dataWidth_of_le_counterMax h.ntot_le
  | tsize => exact lt_dataWidth_of_lt_sw h.tsize_lt
  | x => exact lt_dataWidth_of_lt_sw h.x_lt
  | errcode =>
    rw [registerValue]
    cases s.errCode with
    | none => exact Nat.two_pow_pos _
    | some f => exact f.code_lt_dataWidth _
  | errsym => exact pack_lt_dataWidth h.wmax_le h.errSym_length_le
  | erridx => exact lt_dataWidth_of_le_counterMax h.errIdx_le
  | sop => exact pack_lt_dataWidth h.wmax_le h.sop_length_le

/-! ### The port updates -/

theorem setResp {r : Option Response} (hr : responseLegal (s.setResp r)) : StateInv (s.setResp r) :=
  { h with response := hr }

theorem answer {d : Nat} (hd : d < 2 ^ dataWidth s.build) (st : Status) : StateInv (s.answer st d) :=
  h.setResp (by rintro r ⟨⟩; exact hd)

theorem setInputs (es : List PortEvent) : StateInv (s.setInputs es) := { h with }

theorem setTbl {t : Table} (ht : t.wf = true) : StateInv (s.setTbl t) := { h with table := ht }

theorem drawn : StateInv s.drawn := { h with }

theorem clear : StateInv s.clear :=
  { stateInv_resetFor h.build_legal with response := h.response, table := h.table }

/-! ### The register updates -/

theorem setBuf_nil : StateInv (s.setBuf []) :=
  { h with buffers := ⟨h.w_pos, fun _ => rfl, h.sop_length_le⟩ }

theorem setBuf {b : Symbol} (hp : s.phase.inPass = true) (hb : b.length < s.w.toNat) : StateInv (s.setBuf b) :=
  { h with buffers := ⟨hb, by simp [hp], h.sop_length_le⟩ }

theorem setSop {y : Symbol} (hy : y.length ≤ s.build.wmax) : StateInv (s.setSop y) := by
  obtain ⟨hlt, hnil, -⟩ := h.buffers
  exact { h with buffers := ⟨hlt, hnil, hy⟩ }

/-- `SETW` meets empty arrays and an empty buffer, because it is legal in IDLE only (R121). -/
theorem setW {v : BitVec 8} (hp : s.phase = .idle) (h1 : 1 ≤ v.toNat) (hv : v.toNat ≤ s.build.wmax) :
    StateInv (s.setW v) := by
  obtain ⟨hbuild, -, -, hbase, hscale⟩ := h.config
  obtain ⟨hcwf, -, htot, hmax, hidle⟩ := h.histogram
  obtain ⟨howf, -, hfit⟩ := h.occurrences
  obtain ⟨hcleared, -⟩ := h.encoder
  obtain ⟨-, -, hocc⟩ := hcleared (.inl hp)
  have hbuf : s.buf = [] := h.buf_nil_of_closed (by rw [hp]; rfl)
  exact { h with
    config := ⟨hbuild, h1, hv, hbase, hscale⟩
    buffers := ⟨hbuf ▸ h1, fun _ => hbuf, h.sop_length_le⟩
    histogram := ⟨hcwf, by simp [hidle hp], htot, hmax, hidle⟩
    occurrences := ⟨howf, by simp [hocc], hfit⟩ }

theorem setBase {v : BitVec 24} (hp : s.phase.configurable = true) (hv : 2 ≤ v.toNat) : StateInv (s.setBase v) := by
  obtain ⟨hbuild, hw1, hw, -, hscale⟩ := h.config
  obtain ⟨hcleared, -, ht, hx⟩ := h.encoder
  exact { h with
    config := ⟨hbuild, hw1, hw, hv, hscale⟩
    encoder := ⟨hcleared, fun he => absurd he (Phase.not_encoding_of_configurable hp), ht, hx⟩ }

theorem setScale {v : BitVec 24} (hp : s.phase.configurable = true) (hv : 1 ≤ v.toNat) :
    StateInv (s.setScale v) := by
  obtain ⟨hbuild, hw1, hw, hbase, -⟩ := h.config
  obtain ⟨hcleared, -, ht, hx⟩ := h.encoder
  exact { h with
    config := ⟨hbuild, hw1, hw, hbase, hv⟩
    encoder := ⟨hcleared, fun he => absurd he (Phase.not_encoding_of_configurable hp), ht, hx⟩ }

/-! ### The updates of a pass -/

theorem openCount (hp : s.phase.mayCount = true) : StateInv s.openCount := by
  have hf : s.phase ≠ .fault := by rcases (Phase.mayCount_iff _).1 hp with hp | hp | hp <;> simp [hp]
  exact { h with
    buffers := ⟨h.w_pos, fun _ => rfl, h.sop_length_le⟩
    histogram := ⟨rfl, by simp, rfl, Nat.zero_le _, fun _ => rfl⟩
    occurrences := ⟨rfl, by simp, by simp⟩
    encoder := ⟨fun _ => ⟨rfl, rfl, rfl⟩, by simp, Nat.two_pow_pos _, Nat.two_pow_pos _⟩
    report := h.report_setPhase hf (p := .count) (by decide) }

/-- The table size an accepted `EBEGIN` sets opens the interval `[L, BASE*L)`, which is empty or below `2^SW` (R43). -/
theorem openEncode (hp : s.phase.mayEncode = true) (hl : s.base.toNat * tableSize s ≤ 2 ^ s.build.sw) :
    StateInv (s.openEncode (tableSize s)) := by
  obtain ⟨-, -, -, hbase, -⟩ := h.config
  obtain ⟨hcwf, hsym, htot, hmax, -⟩ := h.histogram
  have hf : s.phase ≠ .fault := by rcases (Phase.mayEncode_iff _).1 hp with hp | hp <;> simp [hp]
  have hgrow : 2 * tableSize s ≤ s.base.toNat * tableSize s := Nat.mul_le_mul_right _ hbase
  have hpos : 0 < 2 ^ s.build.sw := Nat.two_pow_pos _
  have hroom : 1 ≤ tableSize s → tableSize s < s.base.toNat * tableSize s := by omega
  have hlt : tableSize s < 2 ^ s.build.sw := by omega
  exact { h with
    buffers := ⟨h.w_pos, fun _ => rfl, h.sop_length_le⟩
    histogram := ⟨hcwf, hsym, htot, hmax, by simp⟩
    occurrences := ⟨rfl, by simp, by simp⟩
    encoder := ⟨by simp, fun _ => ⟨rfl, hl, fun h1 => ⟨le_rfl, hroom h1⟩, id⟩, hlt, hlt⟩
    report := h.report_setPhase hf (p := .encode) (by decide) }

/-- One count raises the cell and the total by one each (R41). -/
theorem countUp {y : Symbol} (hp : s.phase = .count) (hn : s.ntot ≠ counterMax s.build) (h1 : 1 ≤ y.length)
    (hy : y.length ≤ s.w.toNat) : StateInv (s.countUp y (s.cnt.get y + 1)) := by
  obtain ⟨hcwf, hsym, htot, hmax, -⟩ := h.histogram
  obtain ⟨hcleared, -, ht, hx⟩ := h.encoder
  have hset := Counters.total_set hcwf y (s.cnt.get y + 1)
  exact { h with
    histogram := ⟨Counters.wf_set hcwf _ _, symbolsWithin_set hsym h1 hy _, by simp; omega, by simp; omega,
      by simp [hp]⟩
    encoder := ⟨hcleared, by simp [hp], ht, hx⟩ }

/-- One move of the encoder lands in the interval (R43). -/
theorem moveTo {y : Symbol} {v : Nat} (hp : s.phase = .encode) (hk : s.occ.get y ≠ counterMax s.build)
    (hl : s.tsize ≤ v) (hu : v < s.base.toNat * s.tsize) (h1 : 1 ≤ y.length) (hy : y.length ≤ s.w.toNat) :
    StateInv (s.moveTo v y (s.occ.get y + 1)) := by
  obtain ⟨howf, hsym, hfit⟩ := h.occurrences
  obtain ⟨-, hinterval, ht, -⟩ := h.encoder
  obtain ⟨hsize, hroom, -⟩ := hinterval (.inl hp)
  have hle := h.occ_get_le y
  have hne : s.tsize ≠ 0 := by
    intro h0
    simp [h0] at hu
  exact { h with
    occurrences := ⟨Counters.wf_set howf _ _, symbolsWithin_set hsym h1 hy _, countersFit_set hfit (by omega) _⟩
    encoder := ⟨by simp [hp], fun _ => ⟨hsize, hroom, fun _ => ⟨hl, hu⟩, fun h0 => absurd h0 hne⟩, ht, hu.trans_le hroom⟩ }

/-- `END` closes a pass whose buffer is empty (R42, R125). -/
theorem closePass (hp : s.phase.inPass = true) (hb : s.buf = []) : StateInv (s.setPhase s.phase.afterEnd) := by
  obtain ⟨hcwf, hsym, htot, hmax, -⟩ := h.histogram
  obtain ⟨hcleared, hinterval, ht, hx⟩ := h.encoder
  obtain ⟨hidle, hfault⟩ := Phase.afterEnd_ne s.phase
  have hlive : s.phase ≠ .fault := by rcases (Phase.inPass_iff _).1 hp with hp | hp <;> simp [hp]
  have hencoder : encoderLegal (s.setPhase s.phase.afterEnd) := by
    rcases (Phase.inPass_iff _).1 hp with hp | hp <;> rw [hp]
    · exact ⟨fun _ => hcleared (.inr (.inl hp)), by simp [Phase.afterEnd], ht, hx⟩
    · exact ⟨by simp [Phase.afterEnd], fun _ => hinterval (.inl hp), ht, hx⟩
  exact { h with
    buffers := ⟨h.buf_length_lt, fun _ => hb, h.sop_length_le⟩
    histogram := ⟨hcwf, hsym, htot, hmax, fun he => absurd he hidle⟩
    encoder := hencoder
    report := h.report_setPhase hlive hfault }

theorem enterFault {f : FaultKind} {y : Symbol} {k : Nat} (hb : s.buf = []) (hf2 : f ≠ .degenerateDistribution)
    (hf3 : f ≠ .tableExhausted) (hy : y.length ≤ s.build.wmax) (hk : k ≤ counterMax s.build) :
    StateInv (s.enterFault f y k) := by
  obtain ⟨hcwf, hsym, htot, hmax, -⟩ := h.histogram
  exact { h with
    buffers := ⟨h.buf_length_lt, fun _ => hb, h.sop_length_le⟩
    histogram := ⟨hcwf, hsym, htot, hmax, by simp⟩
    encoder := ⟨by simp, by simp, h.tsize_lt, h.x_lt⟩
    report := ⟨by simp, by simp, by simpa using hf2, by simpa using hf3, hy, hk⟩ }

/-- The index a fault of EMIT reports fits ERRIDX (R36): a count that is there, or one more than a count not full. -/
theorem emit_raised_index_le {y y' : Symbol} {f : FaultKind} {k : Nat} (he : emit y s = .raised f y' k) :
    k ≤ counterMax s.build := by
  have hcnt := h.cnt_get_le y
  have hocc := h.occ_get_le y
  by_cases hp : s.phase = .count
  · rw [emit_count hp] at he
    rcases countSym_cases y s with ⟨-, hc⟩ | ⟨-, hc⟩ <;> rw [hc] at he <;> cases he
    exact hcnt
  · rw [emit, if_neg hp] at he
    rcases encSym_cases y s with ⟨-, hc⟩ | ⟨hk, -, hc⟩ | ⟨v, hk, -, -, hc⟩ | ⟨v, -, -, -, -, hc⟩ <;>
      rw [hc] at he <;> cases he <;> omega

end StateInv

/-! ### The commands and the step -/

/-- Wherever the outcome leads, the invariant holds there. -/
def LeadsToInv (r : Result) : Prop := ∀ t, r = .next t → StateInv t

theorem leadsToInv_answer {u : State} {r : Result} {st : Status} {d : Nat} (hr : r = .next (u.answer st d))
    (hu : StateInv u) (hd : d < 2 ^ dataWidth u.build) : LeadsToInv r := by
  rintro t ht
  cases hr.symm.trans ht
  exact hu.answer hd st

/-- A refusal changes no state (R248). -/
theorem leadsToInv_refusal {s : State} {r : Result} {st : Status} (hs : StateInv s)
    (hr : r = .next (s.answer st 0)) : LeadsToInv r :=
  leadsToInv_answer hr hs (Nat.two_pow_pos _)

section
variable {s : State} (h : StateInv s)
include h

theorem execRd_leadsToInv (r : Byte) : LeadsToInv (execRd r s) := by
  rcases execRd_cases r s with ⟨-, he⟩ | ⟨q, -, -, he⟩ | ⟨q, -, -, he⟩
  · exact leadsToInv_refusal h he
  · exact leadsToInv_refusal h he
  · exact leadsToInv_answer he h (h.registerValue_lt q)

theorem execSetw_leadsToInv (w : Byte) : LeadsToInv (execSetw w s) := by
  rcases execSetw_cases w s with ⟨-, he⟩ | ⟨-, -, he⟩ | ⟨hp, h1, hw, he⟩
  · exact leadsToInv_refusal h he
  · exact leadsToInv_refusal h he
  · exact leadsToInv_answer he (h.setW hp h1 hw) (lt_dataWidth_of_lt_24 _ (w.isLt.trans (by decide)))

theorem execSetb_leadsToInv (b : Imm24) : LeadsToInv (execSetb b s) := by
  rcases execSetb_cases b s with ⟨-, he⟩ | ⟨-, -, he⟩ | ⟨hp, hb, he⟩
  · exact leadsToInv_refusal h he
  · exact leadsToInv_refusal h he
  · exact leadsToInv_answer he (h.setBase hp hb) (lt_dataWidth_of_lt_24 _ b.isLt)

theorem execSetk_leadsToInv (k : Imm24) : LeadsToInv (execSetk k s) := by
  rcases execSetk_cases k s with ⟨-, he⟩ | ⟨-, -, he⟩ | ⟨hp, hk, he⟩
  · exact leadsToInv_refusal h he
  · exact leadsToInv_refusal h he
  · exact leadsToInv_answer he (h.setScale hp hk) (lt_dataWidth_of_lt_24 _ k.isLt)

theorem execCbegin_leadsToInv : LeadsToInv (execCbegin s) := by
  rcases execCbegin_cases s with ⟨-, he⟩ | ⟨hp, he⟩
  · exact leadsToInv_refusal h he
  · exact leadsToInv_answer he (h.openCount hp) (Nat.two_pow_pos _)

theorem execEbegin_leadsToInv : LeadsToInv (execEbegin s) := by
  rcases execEbegin_cases s with ⟨-, he⟩ | ⟨-, -, he⟩ | ⟨hp, hl, he⟩
  · exact leadsToInv_refusal h he
  · exact leadsToInv_refusal h he
  · have hopen := h.openEncode hp hl
    exact leadsToInv_answer he hopen (lt_dataWidth_of_lt_sw hopen.tsize_lt)

theorem execSymb_leadsToInv (first : Bool) (b : Byte) : LeadsToInv (execSymb first b s) := by
  have hle := h.sop_length_le
  have hmax := h.wmax_le
  obtain ⟨hw, -⟩ := h.build_legal
  rcases execSymb_cases first b s with ⟨-, he⟩ | ⟨-, -, -, he⟩ | ⟨-, -, he⟩ | ⟨-, -, hne, he⟩
  · exact leadsToInv_refusal h he
  · exact leadsToInv_refusal h he
  · exact leadsToInv_answer he (h.setSop hw) (lt_dataWidth_of_lt_24 _ (by decide))
  · exact leadsToInv_answer he (h.setSop (by simp; omega)) (lt_dataWidth_of_lt_24 _ (by omega))

theorem execRdcnt_leadsToInv : LeadsToInv (execRdcnt s) := by
  rcases execRdcnt_cases s with ⟨-, he⟩ | ⟨-, -, he⟩ | ⟨-, -, he⟩
  · exact leadsToInv_refusal h he
  · exact leadsToInv_refusal h he
  · exact leadsToInv_answer he h (lt_dataWidth_of_le_counterMax (h.cnt_get_le _))

theorem execRdocc_leadsToInv : LeadsToInv (execRdocc s) := by
  rcases execRdocc_cases s with ⟨-, he⟩ | ⟨-, -, he⟩ | ⟨-, -, he⟩
  · exact leadsToInv_refusal h he
  · exact leadsToInv_refusal h he
  · exact leadsToInv_answer he h (lt_dataWidth_of_le_counterMax (h.occ_get_le _))

theorem execSrcerr_leadsToInv : LeadsToInv (execSrcerr s) := by
  rcases execSrcerr_cases s with ⟨-, he⟩ | ⟨-, he⟩
  · exact leadsToInv_refusal h he
  · exact leadsToInv_answer he
      (h.setBuf_nil.enterFault rfl (by decide) (by decide) (Nat.zero_le _) (Nat.zero_le _))
      (lt_dataWidth_of_lt_24 _ (by decide))

/-- `PUSH` and `END` complete a symbol of 1 to `W` bytes: the fault, the count or the move keeps the invariant, and so
does the command if its last update does. -/
theorem finishEmit_leadsToInv {y : Symbol} (hp : s.phase.inPass = true) (h1 : 1 ≤ y.length)
    (hy : y.length ≤ s.w.toNat) {last : State → State}
    (hlast : ∀ u, StateInv u → u.phase = s.phase → u.buf = [] → StateInv (last u) ∧ (last u).build = u.build) :
    LeadsToInv (finishEmit (emit y (s.setBuf [])) (s.setBuf []) last) := by
  have hs := h.setBuf_nil
  rcases finishEmit_cases y hp last with ⟨f, k, hf, hr, he⟩ | ⟨hc, hn, he⟩ | ⟨hc, hk, v, -, hl, hu, he⟩
  · obtain ⟨hf2, hf3⟩ : f ≠ .degenerateDistribution ∧ f ≠ .tableExhausted := by
      split at hf <;> constructor <;> rintro rfl <;> simp at hf
    exact leadsToInv_answer he
      (hs.enterFault rfl hf2 hf3 (hy.trans h.w_le_wmax) (hs.emit_raised_index_le hr))
      (f.code_lt_dataWidth _)
  · have hcount : StateInv ((s.setBuf []).countUp y (s.cnt.get y + 1)) := hs.countUp hc hn h1 hy
    obtain ⟨hinv, hbuild⟩ := hlast _ hcount rfl rfl
    have hle := h.cnt_get_le_ntot y
    have hmax := h.ntot_le
    refine leadsToInv_answer he hinv ?_
    rw [hbuild]
    exact lt_dataWidth_of_le_counterMax (b := s.build) (by omega)
  · have hmove : StateInv ((s.setBuf []).moveTo v y (s.occ.get y + 1)) := hs.moveTo hc hk hl hu h1 hy
    obtain ⟨hinv, hbuild⟩ := hlast _ hmove rfl rfl
    refine leadsToInv_answer he hinv ?_
    rw [hbuild]
    exact lt_dataWidth_of_lt_sw hmove.x_lt

theorem execPush_leadsToInv (b : Byte) : LeadsToInv (execPush b s) := by
  have hbuf := h.buf_length_lt
  rcases execPush_cases b s with ⟨-, he⟩ | ⟨hp, hlt, he⟩ | ⟨hp, -, he⟩
  · exact leadsToInv_refusal h he
  · exact leadsToInv_answer he (h.setBuf hp (by simpa using hlt)) (Nat.two_pow_pos _)
  · rw [he]
    exact finishEmit_leadsToInv h hp (by simp) (by simpa using hbuf) (fun u hu _ _ => ⟨hu, rfl⟩)

theorem execEnd_leadsToInv : LeadsToInv (execEnd s) := by
  have hbuf := h.buf_length_lt
  rcases execEnd_cases s with ⟨-, he⟩ | ⟨hp, hb, he⟩ | ⟨hp, hb, he⟩
  · exact leadsToInv_refusal h he
  · exact leadsToInv_answer he (h.closePass hp hb) (Nat.two_pow_pos _)
  · rw [he]
    refine finishEmit_leadsToInv h hp (List.length_pos_iff.2 hb) hbuf.le (fun u hu hph hb => ⟨?_, rfl⟩)
    rw [← hph]
    exact hu.closePass (hph ▸ hp) hb

theorem exec_leadsToInv (i : Instr) : LeadsToInv (exec i s) := by
  cases i with
  | nop => exact leadsToInv_refusal h rfl
  | reset => exact leadsToInv_refusal h.clear rfl
  | rd r => exact execRd_leadsToInv h r
  | setw w => exact execSetw_leadsToInv h w
  | setb b => exact execSetb_leadsToInv h b
  | setk k => exact execSetk_leadsToInv h k
  | cbegin => exact execCbegin_leadsToInv h
  | ebegin => exact execEbegin_leadsToInv h
  | push b => exact execPush_leadsToInv h b
  | endStream => exact execEnd_leadsToInv h
  | srcerr => exact execSrcerr_leadsToInv h
  | symb first b => exact execSymb_leadsToInv h first b
  | rdcnt => exact execRdcnt_leadsToInv h
  | rdocc => exact execRdocc_leadsToInv h

/-- What `rst` leaves on the response port fits, as what was there did. -/
theorem responseAfterRst_legal {r : Response} (hr : responseAfterRst s = some r) :
    r.data < 2 ^ dataWidth s.build := by
  rcases responseAfterRst_cases s with hn | hn <;> rw [hn] at hr
  · cases hr
  · exact h.response r hr

theorem step_leadsToInv : LeadsToInv (step s) := by
  intro t ht
  rcases step_cases ht with ⟨-, rfl⟩ | ⟨w, rest, i, -, -, -, he⟩ | ⟨w, rest, -, -, -, rfl⟩ | ⟨rest, -, rfl⟩ |
    ⟨es, rest, -, -, rfl⟩ | ⟨rest, -, rfl⟩
  · exact h
  · exact exec_leadsToInv (h.setInputs rest) i t he
  · exact (h.setInputs rest).answer (Nat.two_pow_pos _) _
  · exact (h.setInputs rest).setResp nofun
  · exact (h.setInputs rest).setTbl (Table.wf_ofEntries es)
  · exact ((h.setInputs rest).clear.setResp (fun r => responseAfterRst_legal (h.setInputs rest))).drawn

end

theorem reachable_stateInv {s : State} (hs : Reachable s) : StateInv s := by
  induction hs with
  | reset b inputs hb => exact (stateInv_resetFor hb).setInputs inputs
  | step _ ht ih => exact step_leadsToInv ih _ ht

end Sys2Proof.Machine
end

section
/-! SUPPORT. What a command answers with, whatever the state: a response on the port and the build parameters it
found. -/

namespace Sys2Proof.Machine

/-- The outcome is a next state with a response on its port and the build parameters of `s`. -/
def Answers (s : State) (r : Result) : Prop := ∃ u st d, r = .next (State.answer u st d) ∧ u.build = s.build

theorem execPush_answers (b : Byte) (s : State) : Answers s (execPush b s) := by
  rcases execPush_cases b s with ⟨-, h⟩ | ⟨-, -, h⟩ | ⟨hp, -, h⟩
  · exact ⟨_, _, _, h, rfl⟩
  · exact ⟨_, _, _, h, rfl⟩
  · rw [h]
    rcases finishEmit_cases (s.buf ++ [b]) hp id with ⟨f, k, -, -, he⟩ | ⟨-, -, he⟩ | ⟨-, -, v, -, -, -, he⟩ <;>
      exact ⟨_, _, _, he, rfl⟩

theorem execEnd_answers (s : State) : Answers s (execEnd s) := by
  rcases execEnd_cases s with ⟨-, h⟩ | ⟨-, -, h⟩ | ⟨hp, -, h⟩
  · exact ⟨_, _, _, h, rfl⟩
  · exact ⟨_, _, _, h, rfl⟩
  · rw [h]
    rcases finishEmit_cases s.buf hp (fun t => t.setPhase s.phase.afterEnd) with
      ⟨f, k, -, -, he⟩ | ⟨-, -, he⟩ | ⟨-, -, v, -, -, -, he⟩ <;> exact ⟨_, _, _, he, rfl⟩

theorem exec_answers (i : Instr) (s : State) : Answers s (exec i s) := by
  cases i with
  | nop => exact ⟨_, _, _, rfl, rfl⟩
  | reset => exact ⟨_, _, _, rfl, rfl⟩
  | rd r => rcases execRd_cases r s with ⟨-, h⟩ | ⟨q, -, -, h⟩ | ⟨q, -, -, h⟩ <;> exact ⟨_, _, _, h, rfl⟩
  | setw w => rcases execSetw_cases w s with ⟨-, h⟩ | ⟨-, -, h⟩ | ⟨-, -, -, h⟩ <;> exact ⟨_, _, _, h, rfl⟩
  | setb b => rcases execSetb_cases b s with ⟨-, h⟩ | ⟨-, -, h⟩ | ⟨-, -, h⟩ <;> exact ⟨_, _, _, h, rfl⟩
  | setk k => rcases execSetk_cases k s with ⟨-, h⟩ | ⟨-, -, h⟩ | ⟨-, -, h⟩ <;> exact ⟨_, _, _, h, rfl⟩
  | cbegin => rcases execCbegin_cases s with ⟨-, h⟩ | ⟨-, h⟩ <;> exact ⟨_, _, _, h, rfl⟩
  | ebegin => rcases execEbegin_cases s with ⟨-, h⟩ | ⟨-, -, h⟩ | ⟨-, -, h⟩ <;> exact ⟨_, _, _, h, rfl⟩
  | push b => exact execPush_answers b s
  | endStream => exact execEnd_answers s
  | srcerr => rcases execSrcerr_cases s with ⟨-, h⟩ | ⟨-, h⟩ <;> exact ⟨_, _, _, h, rfl⟩
  | symb first b =>
    rcases execSymb_cases first b s with ⟨-, h⟩ | ⟨-, -, -, h⟩ | ⟨-, -, h⟩ | ⟨-, -, -, h⟩ <;>
      exact ⟨_, _, _, h, rfl⟩
  | rdcnt => rcases execRdcnt_cases s with ⟨-, h⟩ | ⟨-, -, h⟩ | ⟨-, -, h⟩ <;> exact ⟨_, _, _, h, rfl⟩
  | rdocc => rcases execRdocc_cases s with ⟨-, h⟩ | ⟨-, -, h⟩ | ⟨-, -, h⟩ <;> exact ⟨_, _, _, h, rfl⟩

theorem exec_build {i : Instr} {s t : State} (h : exec i s = .next t) : t.build = s.build := by
  obtain ⟨u, st, d, hu, hb⟩ := exec_answers i s
  cases hu.symm.trans h
  exact hb

end Sys2Proof.Machine
end

section
/-! The obligations of this family. -/

open Sys2Proof Sys2Proof.Machine

/-- Settles O40: each named update keeps the invariant, so each command and each port event does. -/
theorem everyStepKeepsTheInvariant : Obligations.EveryStepKeepsTheInvariant :=
  fun _ t hs ht => step_leadsToInv hs t ht

/-- Settles O39. -/
theorem invariantHoldsAtReset : Obligations.InvariantHoldsAtReset :=
  fun _ inputs hb => (stateInv_resetFor hb).setInputs inputs

/-- Settles O32, by the inversion lemma of each command. -/
theorem everyCommandReplies : Obligations.EveryCommandReplies := by
  intro i s
  obtain ⟨u, st, d, hu, -⟩ := exec_answers i s
  exact ⟨_, _, hu, rfl⟩

/-- Settles O46: the bounds are parts of the invariant, which every reachable state meets. -/
theorem registersFitTheirWidths : Obligations.RegistersFitTheirWidths := by
  intro s hs
  have h := reachable_stateInv hs
  exact ⟨(le_counterMax_iff _ _).1 h.ntot_le, (le_counterMax_iff _ _).1 h.errIdx_le,
    fun y => (le_counterMax_iff _ _).1 (h.cnt_get_le y), fun y => (le_counterMax_iff _ _).1 (h.occ_get_le y),
    h.tsize_lt, h.x_lt, h.sop_length_le, h.errSym_length_le⟩

/-- Settles O48: the invariant after the command bounds the response's data. -/
theorem responseWordLosesNothing : Obligations.ResponseWordLosesNothing := by
  intro i s t r hs ht hr
  have hd : r.data < 2 ^ dataWidth s.build := exec_build ht ▸ (exec_leadsToInv hs i t ht).response r hr
  exact ⟨response_word_toNat hd, hd⟩

/-- Settles O49: the length is the quotient by `2^(8*WMAX)`, and numerals of one length differ in a byte. -/
theorem packIsInjective : Obligations.PackIsInjective := by
  intro b
  exact ⟨by simp [pack, bigEndian], fun y => by rw [pack, bigEndian_eq_sum],
    fun _ _ hy hz => pack_injective hy hz⟩

/-- Settles O7, event by event. -/
theorem stepsOtherThanCommands : Obligations.StepsOtherThanCommands := by
  refine ⟨?waiting, ?taking, ?untaken, ?installing, ?inPass⟩
  case waiting =>
    exact fun s hi => step_waiting hi
  case taking =>
    exact fun s rest hi => step_event hi
  case untaken =>
    intro s w rest hi hr
    exact (step_event hi).trans (acceptWord_untaken (s := s.setInputs rest) hr w)
  case installing =>
    intro s es rest hi hp
    refine ⟨Table.ofEntries es, (step_event hi).trans (if_neg hp), fun y k => ?_⟩
    rw [Table.read_ofEntries, Table.read_eq_find]
  case inPass =>
    exact fun s es rest hi hp => (step_event hi).trans (if_pos hp)

end

section
/-! SUPPORT. Everything a command can do to the whole state, said once over all commands: refused by phase outside the
rows of R40, and otherwise one of the named updates. The frames and the phase table are read off it. -/

namespace Sys2Proof.Machine

/-! ### The phases a command is listed for (R40), by the checks the commands make -/

theorem mem_listedPhases_setw (w : Byte) (p : Phase) : p ∈ listedPhases (.setw w) ↔ p = .idle := by
  simp [listedPhases]

theorem mem_listedPhases_setb (b : Imm24) (p : Phase) : p ∈ listedPhases (.setb b) ↔ p.configurable = true := by
  simp [listedPhases, Phase.configurable_iff]

theorem mem_listedPhases_setk (k : Imm24) (p : Phase) : p ∈ listedPhases (.setk k) ↔ p.configurable = true := by
  simp [listedPhases, Phase.configurable_iff]

theorem mem_listedPhases_cbegin (p : Phase) : p ∈ listedPhases .cbegin ↔ p.mayCount = true := by
  simp [listedPhases, Phase.mayCount_iff]

theorem mem_listedPhases_ebegin (p : Phase) : p ∈ listedPhases .ebegin ↔ p.mayEncode = true := by
  simp [listedPhases, Phase.mayEncode_iff]

theorem mem_listedPhases_push (b : Byte) (p : Phase) : p ∈ listedPhases (.push b) ↔ p.inPass = true := by
  simp [listedPhases, Phase.inPass_iff]

theorem mem_listedPhases_endStream (p : Phase) : p ∈ listedPhases .endStream ↔ p.inPass = true := by
  simp [listedPhases, Phase.inPass_iff]

theorem mem_listedPhases_srcerr (p : Phase) : p ∈ listedPhases .srcerr ↔ p.inPass = true := by
  simp [listedPhases, Phase.inPass_iff]

theorem mem_listedPhases_symb (first : Bool) (b : Byte) (p : Phase) :
    p ∈ listedPhases (.symb first b) ↔ p ≠ .fault := by
  cases p <;> simp [listedPhases]

theorem mem_listedPhases_rdcnt (p : Phase) : p ∈ listedPhases .rdcnt ↔ ReadClass.h.readable p = true := by
  cases p <;> decide

theorem mem_listedPhases_rdocc (p : Phase) : p ∈ listedPhases .rdocc ↔ ReadClass.e.readable p = true := by
  cases p <;> decide

/-- Register 4 is of class H, registers 5 and 6 of class E, every other one of class C (R38). -/
theorem readClass_ofNumber {r : Byte} {q : Register} (h : Register.ofNumber r = some q) :
    q.readClass = if r = 4 then .h else if r = 5 ∨ r = 6 then .e else .c := by
  unfold Register.ofNumber at h
  split at h <;> cases h <;> rename_i hr <;> simp [BitVec.toNat_eq, hr, Register.readClass]

theorem mem_listedPhases_rd {r : Byte} {q : Register} (h : Register.ofNumber r = some q) (p : Phase) :
    p ∈ listedPhases (.rd r) ↔ q.readClass.readable p = true := by
  rw [readClass_ofNumber h, listedPhases]
  split
  · cases p <;> decide
  · split <;> cases p <;> decide

/-- The phase check of `RD` passes for a reserved register number (R98). -/
theorem mem_listedPhases_rd_reserved {r : Byte} (h : Register.ofNumber r = none) (p : Phase) :
    p ∈ listedPhases (.rd r) := by
  have h4 : r ≠ 4 := by rintro rfl; cases h
  have h56 : ¬ (r = 5 ∨ r = 6) := by rintro (rfl | rfl) <;> cases h
  rw [listedPhases, if_neg h4, if_neg h56]
  cases p <;> decide

/-! ### The effect of a command -/

/-- The commands that can be refused for an operand or for a configuration that does not fit (R248). -/
def checksArg : Instr → Bool
  | .rd _ | .setw _ | .setb _ | .setk _ | .ebegin | .symb _ _ | .rdcnt | .rdocc => true
  | .nop | .reset | .cbegin | .push _ | .endStream | .srcerr => false

/-- The commands that only read (R224, R226, R144, R205). -/
def onlyReads : Instr → Bool
  | .nop | .rd _ | .rdcnt | .rdocc => true
  | .reset | .setw _ | .setb _ | .setk _ | .cbegin | .ebegin | .push _ | .endStream | .srcerr | .symb _ _ => false

/-- `i` completes the symbol `y` in state `s` and then goes to phase `p` (R123, R125). -/
def CompletesSymbol (s : State) (i : Instr) (y : Symbol) (p : Phase) : Prop :=
  (∃ b, i = .push b ∧ y = s.buf ++ [b] ∧ p = s.phase) ∨ (i = .endStream ∧ y = s.buf ∧ p = s.phase.afterEnd)

/-- `Effect s i t`: in a phase it is listed for, the command `i` can make `t` of `s`. When it does, as far as operands,
counters and the table decide that, is in the inversion lemma of each command. -/
inductive Effect (s : State) : Instr → State → Prop where
  | refusesArg {i : Instr} (hi : checksArg i = true) : Effect s i (s.answer .refusedArg 0)
  | reads {i : Instr} (hi : onlyReads i = true) (d : Nat) : Effect s i (s.answer .ok d)
  | resets : Effect s .reset (s.clear.answer .ok 0)
  | setsWidth (w : Byte) : Effect s (.setw w) ((s.setW w).answer .ok w.toNat)
  | setsBase (b : Imm24) : Effect s (.setb b) ((s.setBase b).answer .ok b.toNat)
  | setsScale (k : Imm24) : Effect s (.setk k) ((s.setScale k).answer .ok k.toNat)
  | startsOperand (b : Byte) : Effect s (.symb true b) ((s.setSop [b]).answer .ok 1)
  | extendsOperand (b : Byte) :
      Effect s (.symb false b) ((s.setSop (s.sop ++ [b])).answer .ok (s.sop.length + 1))
  | opensCount : Effect s .cbegin (s.openCount.answer .ok 0)
  | opensEncode : Effect s .ebegin ((s.openEncode (tableSize s)).answer .ok (tableSize s))
  | fills (b : Byte) : Effect s (.push b) ((s.setBuf (s.buf ++ [b])).answer .ok 0)
  | closes : Effect s .endStream ((s.setPhase s.phase.afterEnd).answer .ok 0)
  | faults {i : Instr} {f : FaultKind} (hf : f ∈ faultsListed i s.phase) (y : Symbol) (k : Nat) :
      Effect s i (((s.setBuf []).enterFault f y k).answer .fault f.code)
  | counts {i : Instr} {y : Symbol} {p : Phase} (hp : s.phase = .count) (hi : CompletesSymbol s i y p) :
      Effect s i ((((s.setBuf []).countUp y (s.cnt.get y + 1)).setPhase p).answer .sym (s.cnt.get y + 1))
  | moves {i : Instr} {y : Symbol} {p : Phase} (hp : s.phase = .encode) (hi : CompletesSymbol s i y p) (v : Nat) :
      Effect s i ((((s.setBuf []).moveTo v y (s.occ.get y + 1)).setPhase p).answer .sym v)

/-- A command is listed for the phase and has an effect, or it is not and is refused by phase (R40). -/
def ListedOrRefused (i : Instr) (s : State) : Prop :=
  (s.phase ∉ listedPhases i ∧ exec i s = .next (s.answer .refusedPhase 0)) ∨
  (s.phase ∈ listedPhases i ∧ ∃ t, Effect s i t ∧ exec i s = .next t)

theorem listedOrRefused_of_refused {i : Instr} {s : State} (hp : s.phase ∉ listedPhases i)
    (h : exec i s = .next (s.answer .refusedPhase 0)) : ListedOrRefused i s := .inl ⟨hp, h⟩

theorem listedOrRefused_of_effect {i : Instr} {s t : State} (hp : s.phase ∈ listedPhases i) (he : Effect s i t)
    (h : exec i s = .next t) : ListedOrRefused i s := .inr ⟨hp, t, he, h⟩

theorem exec_rd_listedOrRefused (r : Byte) (s : State) : ListedOrRefused (.rd r) s := by
  rcases execRd_cases r s with ⟨hq, h⟩ | ⟨q, hq, hp, h⟩ | ⟨q, hq, hp, h⟩
  · exact listedOrRefused_of_effect (mem_listedPhases_rd_reserved hq _) (.refusesArg rfl) h
  · exact listedOrRefused_of_refused (by simp [mem_listedPhases_rd hq, hp]) h
  · exact listedOrRefused_of_effect ((mem_listedPhases_rd hq _).2 hp) (.reads rfl _) h

theorem exec_setw_listedOrRefused (w : Byte) (s : State) : ListedOrRefused (.setw w) s := by
  rcases execSetw_cases w s with ⟨hp, h⟩ | ⟨hp, -, h⟩ | ⟨hp, -, -, h⟩
  · exact listedOrRefused_of_refused (by simp [mem_listedPhases_setw, hp]) h
  · exact listedOrRefused_of_effect ((mem_listedPhases_setw w _).2 hp) (.refusesArg rfl) h
  · exact listedOrRefused_of_effect ((mem_listedPhases_setw w _).2 hp) (.setsWidth w) h

theorem exec_setb_listedOrRefused (b : Imm24) (s : State) : ListedOrRefused (.setb b) s := by
  rcases execSetb_cases b s with ⟨hp, h⟩ | ⟨hp, -, h⟩ | ⟨hp, -, h⟩
  · exact listedOrRefused_of_refused (by simp [mem_listedPhases_setb, hp]) h
  · exact listedOrRefused_of_effect ((mem_listedPhases_setb b _).2 hp) (.refusesArg rfl) h
  · exact listedOrRefused_of_effect ((mem_listedPhases_setb b _).2 hp) (.setsBase b) h

theorem exec_setk_listedOrRefused (k : Imm24) (s : State) : ListedOrRefused (.setk k) s := by
  rcases execSetk_cases k s with ⟨hp, h⟩ | ⟨hp, -, h⟩ | ⟨hp, -, h⟩
  · exact listedOrRefused_of_refused (by simp [mem_listedPhases_setk, hp]) h
  · exact listedOrRefused_of_effect ((mem_listedPhases_setk k _).2 hp) (.refusesArg rfl) h
  · exact listedOrRefused_of_effect ((mem_listedPhases_setk k _).2 hp) (.setsScale k) h

theorem exec_cbegin_listedOrRefused (s : State) : ListedOrRefused .cbegin s := by
  rcases execCbegin_cases s with ⟨hp, h⟩ | ⟨hp, h⟩
  · exact listedOrRefused_of_refused (by simp [mem_listedPhases_cbegin, hp]) h
  · exact listedOrRefused_of_effect ((mem_listedPhases_cbegin _).2 hp) .opensCount h

theorem exec_ebegin_listedOrRefused (s : State) : ListedOrRefused .ebegin s := by
  rcases execEbegin_cases s with ⟨hp, h⟩ | ⟨hp, -, h⟩ | ⟨hp, -, h⟩
  · exact listedOrRefused_of_refused (by simp [mem_listedPhases_ebegin, hp]) h
  · exact listedOrRefused_of_effect ((mem_listedPhases_ebegin _).2 hp) (.refusesArg rfl) h
  · exact listedOrRefused_of_effect ((mem_listedPhases_ebegin _).2 hp) .opensEncode h

/-- A command that ends as EMIT does faults, counts or moves, and goes on to the phase of its last update. -/
theorem finishEmit_effect {i : Instr} {s : State} {y : Symbol} {p : Phase} {last : State → State}
    (hp : s.phase.inPass = true) (hi : CompletesSymbol s i y p)
    (hlast : ∀ u : State, u.phase = s.phase → last u = u.setPhase p) :
    ∃ t, Effect s i t ∧ finishEmit (emit y (s.setBuf [])) (s.setBuf []) last = .next t := by
  rcases finishEmit_cases y hp last with ⟨f, k, hf, -, he⟩ | ⟨hc, -, he⟩ | ⟨hc, -, v, -, -, -, he⟩
  · have hlisted : f ∈ faultsListed i s.phase := by
      rcases hi with ⟨b, rfl, -⟩ | ⟨rfl, -⟩ <;> exact hf
    exact ⟨_, .faults hlisted y k, he⟩
  · rw [hlast ((s.setBuf []).countUp y _) rfl] at he
    exact ⟨_, .counts hc hi, he⟩
  · rw [hlast ((s.setBuf []).moveTo v y _) rfl] at he
    exact ⟨_, .moves hc hi v, he⟩

theorem exec_push_listedOrRefused (b : Byte) (s : State) : ListedOrRefused (.push b) s := by
  rcases execPush_cases b s with ⟨hp, h⟩ | ⟨hp, -, h⟩ | ⟨hp, -, h⟩
  · exact listedOrRefused_of_refused (by simp [mem_listedPhases_push, hp]) h
  · exact listedOrRefused_of_effect ((mem_listedPhases_push b _).2 hp) (.fills b) h
  · obtain ⟨t, ht, he⟩ := finishEmit_effect (last := id) hp (.inl ⟨b, rfl, rfl, rfl⟩) (fun _ hu => hu ▸ rfl)
    exact listedOrRefused_of_effect ((mem_listedPhases_push b _).2 hp) ht (h.trans he)

theorem exec_endStream_listedOrRefused (s : State) : ListedOrRefused .endStream s := by
  rcases execEnd_cases s with ⟨hp, h⟩ | ⟨hp, -, h⟩ | ⟨hp, -, h⟩
  · exact listedOrRefused_of_refused (by simp [mem_listedPhases_endStream, hp]) h
  · exact listedOrRefused_of_effect ((mem_listedPhases_endStream _).2 hp) .closes h
  · obtain ⟨t, ht, he⟩ := finishEmit_effect hp (.inr ⟨rfl, rfl, rfl⟩) (fun _ _ => rfl)
    exact listedOrRefused_of_effect ((mem_listedPhases_endStream _).2 hp) ht (h.trans he)

theorem exec_srcerr_listedOrRefused (s : State) : ListedOrRefused .srcerr s := by
  rcases execSrcerr_cases s with ⟨hp, h⟩ | ⟨hp, h⟩
  · exact listedOrRefused_of_refused (by simp [mem_listedPhases_srcerr, hp]) h
  · exact listedOrRefused_of_effect ((mem_listedPhases_srcerr _).2 hp) (.faults (by simp [faultsListed]) _ _) h

theorem exec_symb_listedOrRefused (first : Bool) (b : Byte) (s : State) : ListedOrRefused (.symb first b) s := by
  rcases execSymb_cases first b s with ⟨hp, h⟩ | ⟨hp, -, -, h⟩ | ⟨hp, rfl, h⟩ | ⟨hp, rfl, -, h⟩
  · exact listedOrRefused_of_refused (by simp [mem_listedPhases_symb, hp]) h
  · exact listedOrRefused_of_effect ((mem_listedPhases_symb first b _).2 hp) (.refusesArg rfl) h
  · exact listedOrRefused_of_effect ((mem_listedPhases_symb true b _).2 hp) (.startsOperand b) h
  · exact listedOrRefused_of_effect ((mem_listedPhases_symb false b _).2 hp) (.extendsOperand b) h

theorem exec_rdcnt_listedOrRefused (s : State) : ListedOrRefused .rdcnt s := by
  rcases execRdcnt_cases s with ⟨hp, h⟩ | ⟨hp, -, h⟩ | ⟨hp, -, h⟩
  · exact listedOrRefused_of_refused (by simp [mem_listedPhases_rdcnt, hp]) h
  · exact listedOrRefused_of_effect ((mem_listedPhases_rdcnt _).2 hp) (.refusesArg rfl) h
  · exact listedOrRefused_of_effect ((mem_listedPhases_rdcnt _).2 hp) (.reads rfl _) h

theorem exec_rdocc_listedOrRefused (s : State) : ListedOrRefused .rdocc s := by
  rcases execRdocc_cases s with ⟨hp, h⟩ | ⟨hp, -, h⟩ | ⟨hp, -, h⟩
  · exact listedOrRefused_of_refused (by simp [mem_listedPhases_rdocc, hp]) h
  · exact listedOrRefused_of_effect ((mem_listedPhases_rdocc _).2 hp) (.refusesArg rfl) h
  · exact listedOrRefused_of_effect ((mem_listedPhases_rdocc _).2 hp) (.reads rfl _) h

theorem exec_listedOrRefused (i : Instr) (s : State) : ListedOrRefused i s := by
  cases i with
  | nop => exact listedOrRefused_of_effect (by cases s.phase <;> decide) (.reads rfl 0) rfl
  | reset => exact listedOrRefused_of_effect (by cases s.phase <;> decide) .resets rfl
  | rd r => exact exec_rd_listedOrRefused r s
  | setw w => exact exec_setw_listedOrRefused w s
  | setb b => exact exec_setb_listedOrRefused b s
  | setk k => exact exec_setk_listedOrRefused k s
  | cbegin => exact exec_cbegin_listedOrRefused s
  | ebegin => exact exec_ebegin_listedOrRefused s
  | push b => exact exec_push_listedOrRefused b s
  | endStream => exact exec_endStream_listedOrRefused s
  | srcerr => exact exec_srcerr_listedOrRefused s
  | symb first b => exact exec_symb_listedOrRefused first b s
  | rdcnt => exact exec_rdcnt_listedOrRefused s
  | rdocc => exact exec_rdocc_listedOrRefused s

/-- Everything a command can do, as an inversion of its next state. -/
theorem exec_refusal_or_effect {i : Instr} {s t : State} (h : exec i s = .next t) :
    t = s.answer .refusedPhase 0 ∨ Effect s i t := by
  rcases exec_listedOrRefused i s with ⟨-, he⟩ | ⟨-, u, hu, he⟩ <;> injection he.symm.trans h with ht
  · exact .inl ht.symm
  · exact .inr (ht ▸ hu)

/-! ### What the effects say of the command -/

/-- Only the commands of a pass raise faults (R40). -/
theorem instr_of_mem_faultsListed {i : Instr} {p : Phase} {f : FaultKind} (h : f ∈ faultsListed i p) :
    i = .endStream ∨ i = .srcerr ∨ ∃ b, i = .push b := by
  cases i <;> simp [faultsListed] at h ⊢

theorem mem_phasesAfter_of_checksArg {i : Instr} (h : checksArg i = true) (p : Phase) : p ∈ phasesAfter i p := by
  cases i <;> simp [checksArg, phasesAfter] at h ⊢

theorem mem_phasesAfter_of_onlyReads {i : Instr} (h : onlyReads i = true) (p : Phase) : p ∈ phasesAfter i p := by
  cases i <;> simp [onlyReads, phasesAfter] at h ⊢

theorem ne_ebegin_of_onlyReads {i : Instr} (h : onlyReads i = true) : i ≠ .ebegin := by
  rintro rfl
  cases h

theorem afterEnd_mem_phasesAfter (p : Phase) : p.afterEnd ∈ phasesAfter .endStream p := by
  cases p <;> decide

theorem fault_mem_phasesAfter {i : Instr} {p : Phase} {f : FaultKind} (h : f ∈ faultsListed i p) :
    .fault ∈ phasesAfter i p := by
  rcases instr_of_mem_faultsListed h with rfl | rfl | ⟨b, rfl⟩
  · cases p <;> decide
  · simp [phasesAfter]
  · simp [phasesAfter]

namespace CompletesSymbol

variable {s : State} {i : Instr} {y : Symbol} {p : Phase} (h : CompletesSymbol s i y p)
include h

theorem mem_phasesAfter : p ∈ phasesAfter i s.phase := by
  rcases h with ⟨b, rfl, -, rfl⟩ | ⟨rfl, -, rfl⟩
  · simp [phasesAfter]
  · exact afterEnd_mem_phasesAfter _

theorem ne_fault (hs : s.phase ≠ .fault) : p ≠ .fault := by
  rcases h with ⟨b, -, -, rfl⟩ | ⟨-, -, rfl⟩
  · exact hs
  · exact (Phase.afterEnd_ne _).2

theorem ne_ebegin : i ≠ .ebegin := by
  rcases h with ⟨b, rfl, -⟩ | ⟨rfl, -⟩ <;> nofun

end CompletesSymbol

/-! ### The phase table (R40) -/

/-- What the row of R40 says of a listed command `i` that leads from `s` to `t`. -/
def FollowsRow (i : Instr) (s t : State) : Prop :=
  ∃ r, t.resp = some r ∧ r.status ≠ .refusedPhase ∧ t.phase ∈ phasesAfter i s.phase ∧
    (s.phase ≠ .fault → (t.phase = .fault ↔ r.status = .fault)) ∧
    (r.status = .fault → ∃ f ∈ faultsListed i s.phase, t.errCode = some f) ∧
    (i = .ebegin → t.phase ≠ .encode → r.status = .refusedArg)

/-- A response that is neither FAULT nor REFUSED_PHASE leaves the duties about the phase alone. -/
theorem followsRow_of_answer {i : Instr} {s u : State} {st : Status} {d : Nat}
    (hst : st ≠ .refusedPhase ∧ st ≠ .fault) (hp : u.phase ∈ phasesAfter i s.phase)
    (hlive : s.phase ≠ .fault → u.phase ≠ .fault)
    (hstay : i = .ebegin → u.phase ≠ .encode → st = .refusedArg) : FollowsRow i s (u.answer st d) :=
  ⟨_, rfl, hst.1, hp, fun hs => iff_of_false (hlive hs) hst.2, fun hf => absurd hf hst.2, hstay⟩

theorem followsRow_of_fault {i : Instr} {s u : State} {f : FaultKind} {d : Nat} (hf : f ∈ faultsListed i s.phase)
    (hp : u.phase = .fault) (he : u.errCode = some f) : FollowsRow i s (u.answer .fault d) := by
  refine ⟨_, rfl, nofun, ?_, fun _ => iff_of_true hp rfl, fun _ => ⟨f, hf, he⟩, ?_⟩
  · rw [State.answer_phase, hp]
    exact fault_mem_phasesAfter hf
  · rintro rfl
    cases hf

theorem Effect.followsRow {i : Instr} {s t : State} (h : Effect s i t) : FollowsRow i s t := by
  cases h with
  | refusesArg hi => exact followsRow_of_answer (by decide) (mem_phasesAfter_of_checksArg hi _) id (fun _ _ => rfl)
  | reads hi d =>
    exact followsRow_of_answer (by decide) (mem_phasesAfter_of_onlyReads hi _) id
      (fun he => absurd he (ne_ebegin_of_onlyReads hi))
  | resets => exact followsRow_of_answer (by decide) (by simp [phasesAfter]) nofun nofun
  | setsWidth w => exact followsRow_of_answer (by decide) (by simp [phasesAfter]) id nofun
  | setsBase b => exact followsRow_of_answer (by decide) (by simp [phasesAfter]) id nofun
  | setsScale k => exact followsRow_of_answer (by decide) (by simp [phasesAfter]) id nofun
  | startsOperand b => exact followsRow_of_answer (by decide) (by simp [phasesAfter]) id nofun
  | extendsOperand b => exact followsRow_of_answer (by decide) (by simp [phasesAfter]) id nofun
  | opensCount => exact followsRow_of_answer (by decide) (by simp [phasesAfter]) nofun nofun
  | opensEncode =>
    exact followsRow_of_answer (by decide) (by simp [phasesAfter]) nofun (fun _ hne => absurd rfl hne)
  | fills b => exact followsRow_of_answer (by decide) (by simp [phasesAfter]) id nofun
  | closes =>
    exact followsRow_of_answer (by decide) (afterEnd_mem_phasesAfter _) (fun _ => (Phase.afterEnd_ne _).2) nofun
  | faults hf y k => exact followsRow_of_fault hf rfl rfl
  | counts hp hi =>
    exact followsRow_of_answer (by decide) hi.mem_phasesAfter hi.ne_fault (fun he => absurd he hi.ne_ebegin)
  | moves hp hi v =>
    exact followsRow_of_answer (by decide) hi.mem_phasesAfter hi.ne_fault (fun he => absurd he hi.ne_ebegin)

/-- No command touches the build parameters, the table, the host's later events or the free values (R21, R60). -/
theorem exec_keeps_ports {i : Instr} {s t : State} (h : exec i s = .next t) :
    t.build = s.build ∧ t.tbl = s.tbl ∧ t.inputs = s.inputs ∧ t.draws = s.draws := by
  rcases exec_refusal_or_effect h with rfl | he
  · simp
  · cases he <;> simp

end Sys2Proof.Machine
end

section
/-! SUPPORT. Sums over the counter arrays (R41, R44), and `ERRCODE` as a number (R35). -/

namespace Sys2Proof.Machine

/-- The cells of any finite set that holds every listed symbol sum to the total (R41). -/
theorem Counters.sum_get_eq_total {c : Counters} (hc : c.wf = true) {syms : Finset Symbol}
    (hs : ∀ e ∈ c, e.1 ∈ syms) : ∑ y ∈ syms, c.get y = c.total := by
  induction c with
  | nil => simp
  | cons e rest ih =>
    obtain ⟨k, v⟩ := e
    obtain ⟨-, hk, hr⟩ := (Counters.wf_cons k v rest).1 hc
    have hget : ∀ y, Counters.get ((k, v) :: rest) y = (if k = y then v else 0) + Counters.get rest y := by
      intro y
      rw [Counters.get_cons]
      split
      · next h => rw [← h, Counters.get_eq_zero_of_below hk, Nat.add_zero]
      · rw [Nat.zero_add]
    have hmem : k ∈ syms := hs (k, v) (by simp)
    simp only [hget, Finset.sum_add_distrib, Finset.sum_ite_eq, hmem, if_true, Counters.total_cons,
      ih hr (fun e he => hs e (by simp [he]))]

/-- One more occurrence of a symbol adds 1 to the total. -/
theorem Counters.total_set_succ {c : Counters} (hc : c.wf = true) (y : Symbol) :
    (c.set y (c.get y + 1)).total = c.total + 1 := by
  have := Counters.total_set hc y (c.get y + 1)
  omega

theorem errCodeNumber_eq_zero_iff (e : Option FaultKind) : errCodeNumber e = 0 ↔ e = none := by
  cases e with
  | none => simp [errCodeNumber]
  | some f => cases f <;> simp [errCodeNumber, FaultKind.code]

/-- R41, over any finite set that holds the symbols of a run. -/
theorem StateInv.ntot_eq_sum {s : State} (h : StateInv s) {syms : Finset Symbol}
    (hs : ∀ y : Symbol, 1 ≤ y.length → y.length ≤ s.build.wmax → y ∈ syms) : s.ntot = ∑ y ∈ syms, s.cnt.get y := by
  obtain ⟨hwf, hsym, htot, -⟩ := h.histogram
  rw [Counters.sum_get_eq_total hwf, htot]
  intro e he
  obtain ⟨h1, hw⟩ := hsym e he
  exact hs e.1 h1 (hw.trans h.w_le_wmax)

end Sys2Proof.Machine
end

section
/-! The obligations of this family. -/

open Sys2Proof Sys2Proof.Machine

/-- Settles O41: the total of the listed cells is the sum over `Sym(WMAX)`, which holds every listed symbol. -/
theorem frequencyConservation : Obligations.FrequencyConservation :=
  fun _ _ hs hsyms => (reachable_stateInv hs).ntot_eq_sum (fun y h1 hw => (hsyms y).2 ⟨h1, hw⟩)

/-- Settles O42: a clause of the invariant, which every reachable state meets. -/
theorem bufferShorterThanTheWidth : Obligations.BufferShorterThanTheWidth := by
  intro s hs
  have h := reachable_stateInv hs
  refine ⟨h.buf_length_lt, fun hc he => h.buf_nil_of_closed ?_⟩
  simpa [hc, he] using (Phase.inPass_iff s.phase).not

/-- Settles O43: a clause of the invariant. -/
theorem stateStaysInTheWorkingInterval : Obligations.StateStaysInTheWorkingInterval := by
  intro s hs hp
  obtain ⟨-, hinterval, -⟩ := (reachable_stateInv hs).encoder
  obtain ⟨-, -, hx⟩ := hinterval hp
  exact hx

/-- Settles O44: two clauses of the invariant, an empty array reading 0 and no fault kind having code 0. -/
theorem encoderResultsAndReportByPhase : Obligations.EncoderResultsAndReportByPhase := by
  intro s hs
  have h := reachable_stateInv hs
  obtain ⟨hcleared, -⟩ := h.encoder
  obtain ⟨hcode, -⟩ := h.report
  refine ⟨fun hp => ?_, (errCodeNumber_eq_zero_iff _).trans hcode⟩
  obtain ⟨ht, hx, ho⟩ := hcleared hp
  exact ⟨ht, hx, fun y => by rw [ho, Counters.get_nil]⟩

/-- Settles O30: the frames of the two commands, then what every effect keeps. -/
theorem passOpeningAndPortsFrame : Obligations.PassOpeningAndPortsFrame := by
  intro s t
  refine ⟨?opening, ?histogram, fun i h => exec_keeps_ports h⟩
  case opening =>
    rintro (h | h)
    · rcases execCbegin_cases s with ⟨-, he⟩ | ⟨-, he⟩ <;> cases he.symm.trans h <;> simp
    · rcases execEbegin_cases s with ⟨-, he⟩ | ⟨-, -, he⟩ | ⟨-, -, he⟩ <;> cases he.symm.trans h <;> simp
  case histogram =>
    intro h
    rcases execEbegin_cases s with ⟨-, he⟩ | ⟨-, -, he⟩ | ⟨-, -, he⟩ <;> cases he.symm.trans h <;> simp

/-- Settles O31: each effect names its command and the registers it writes. -/
theorem eachRegisterHasItsWriters : Obligations.EachRegisterHasItsWriters := by
  intro i s t h
  rcases exec_refusal_or_effect h with rfl | he
  · simp
  cases he with
  | faults hf y k =>
    have hi := instr_of_mem_faultsListed hf
    simp [hi]
  | counts hp hi => rcases hi with ⟨b, rfl, -, rfl⟩ | ⟨rfl, -, rfl⟩ <;> simp [hp]
  | moves hp hi v => rcases hi with ⟨b, rfl, -, rfl⟩ | ⟨rfl, -, rfl⟩ <;> simp [hp]
  | _ => simp

/-- Settles O33: a command not listed is refused by phase, and every effect of a listed one follows its row. -/
theorem phaseTable : Obligations.PhaseTable := by
  intro i s
  rcases exec_listedOrRefused i s with ⟨hp, h⟩ | ⟨hp, t, ht, h⟩
  · exact ⟨fun _ => h, fun hlisted => absurd hlisted hp⟩
  · obtain ⟨r, hr⟩ := ht.followsRow
    exact ⟨fun hnot => absurd hp hnot, fun _ => ⟨t, r, h, hr⟩⟩

/-- Settles O45: of the effects that do not open a run only a move of the encoder, which replies SYM, writes OCC; a
count, which also replies SYM, happens in phase COUNT alone. -/
theorem occurrencesSumToTheSymbolsEncoded : Obligations.OccurrencesSumToTheSymbolsEncoded := by
  refine ⟨?encoding, ?opening⟩
  case encoding =>
    intro i s t hwf hp hreset hcbegin hebegin h
    rcases exec_refusal_or_effect h with rfl | he
    · simp
    cases he with
    | resets => exact absurd rfl hreset
    | opensCount => exact absurd rfl hcbegin
    | opensEncode => exact absurd rfl hebegin
    | counts hc hi => simp [hc] at hp
    | moves hc hi v => simp [Counters.total_set_succ hwf]
    | _ => simp
  case opening =>
    intro s t h hok
    rcases execEbegin_cases s with ⟨-, he⟩ | ⟨-, -, he⟩ | ⟨-, -, he⟩ <;> cases he.symm.trans h
    · simp at hok
    · simp at hok
    · simp
end

section
/-! SUPPORT. What the table store may decide: a command reads no entry but the one at the key of the symbol it
completes (R66, R203), so with another table that agrees there it does the same, the table apart. -/

namespace Sys2Proof.Machine

/-! ### Outcomes, the table apart -/

/-- The outcome `r` with the table `tbl` in place of its own. -/
def withTable (tbl : Table) : Result → Result
  | .next t => .next (t.setTbl tbl)
  | .fault f => .fault f
  | .refused f => .refused f

/-- The action's result with the table `tbl` in place of its own. -/
def ActionResult.withTable (tbl : Table) : ActionResult → ActionResult
  | .done t d => .done (t.setTbl tbl) d
  | .raised f y k => .raised f y k

/-! ### `RD` -/

theorem registerValue_setTbl (tbl : Table) (s : State) (q : Register) :
    registerValue q (s.setTbl tbl) = registerValue q s := by
  cases q <;> rfl

theorem execRd_setTbl (tbl : Table) (s : State) (r : Byte) : execRd r (s.setTbl tbl) = withTable tbl (execRd r s) := by
  unfold execRd
  cases Register.ofNumber r with
  | none => rfl
  | some q => simp only [apply_ite (withTable tbl), registerValue_setTbl]; rfl

/-! ### The commands that complete a symbol -/

/-- `tbl` and the table of `s` agree at the next key of the symbol `y`, the key ENCSYM looks up (R203). -/
def AgreesAtNextKey (tbl : Table) (s : State) (y : Symbol) : Prop :=
  tbl.read y (s.occ.get y + 1) = s.tbl.read y (s.occ.get y + 1)

section
variable {tbl : Table} {s : State}

theorem countSym_setTbl (y : Symbol) : countSym y (s.setTbl tbl) = (countSym y s).withTable tbl := by
  rw [countSym, countSym, apply_ite (ActionResult.withTable tbl)]
  rfl

theorem encSym_setTbl {y : Symbol} (h : AgreesAtNextKey tbl s y) :
    encSym y (s.setTbl tbl) = (encSym y s).withTable tbl := by
  have hread : (s.setTbl tbl).tbl.read y (s.occ.get y + 1) = s.tbl.read y (s.occ.get y + 1) := h
  simp only [encSym, State.setTbl_occ, hread, apply_ite (ActionResult.withTable tbl)]
  cases s.tbl.read y (s.occ.get y + 1) with
  | none => rfl
  | some v => simp only [apply_ite (ActionResult.withTable tbl)]; rfl

theorem emit_setTbl {y : Symbol} (h : AgreesAtNextKey tbl s y) :
    emit y (s.setTbl tbl) = (emit y s).withTable tbl := by
  rw [emit, emit, apply_ite (ActionResult.withTable tbl), countSym_setTbl, encSym_setTbl h]
  rfl

theorem finishEmit_withTable (r : ActionResult) {last : State → State}
    (hlast : ∀ u : State, last (u.setTbl tbl) = (last u).setTbl tbl) :
    finishEmit (r.withTable tbl) (s.setTbl tbl) last = withTable tbl (finishEmit r s last) := by
  cases r with
  | done t d => exact congrArg (reply .sym d) (hlast t)
  | raised f y k => rfl

theorem completeSymbol_setTbl {y : Symbol} (h : AgreesAtNextKey tbl s y) {last : State → State}
    (hlast : ∀ u : State, last (u.setTbl tbl) = (last u).setTbl tbl) :
    finishEmit (emit y ((s.setTbl tbl).setBuf [])) ((s.setTbl tbl).setBuf []) last =
      withTable tbl (finishEmit (emit y (s.setBuf [])) (s.setBuf []) last) := by
  have hemit : emit y ((s.setBuf []).setTbl tbl) = (emit y (s.setBuf [])).withTable tbl := emit_setTbl h
  rw [← finishEmit_withTable _ hlast, ← hemit]
  rfl

theorem execPush_setTbl {b : Byte} (h : AgreesAtNextKey tbl s (s.buf ++ [b])) :
    execPush b (s.setTbl tbl) = withTable tbl (execPush b s) := by
  have hsymbol := completeSymbol_setTbl h (last := id) (fun _ => rfl)
  simp only [execPush, apply_ite (withTable tbl), ← hsymbol]
  rfl

theorem execEnd_setTbl (h : AgreesAtNextKey tbl s s.buf) :
    execEnd (s.setTbl tbl) = withTable tbl (execEnd s) := by
  have hsymbol := completeSymbol_setTbl h (last := fun t => t.setPhase s.phase.afterEnd) (fun _ => rfl)
  simp only [execEnd, apply_ite (withTable tbl), ← hsymbol]
  rfl

/-- A command reads the table at no key but the next one of the symbol it completes (R66, R203): every check and every
update of a command that completes none passes the table by. -/
theorem exec_setTbl {i : Instr} (hpush : ∀ b, i = .push b → AgreesAtNextKey tbl s (s.buf ++ [b]))
    (hend : i = .endStream → AgreesAtNextKey tbl s s.buf) :
    exec i (s.setTbl tbl) = withTable tbl (exec i s) := by
  cases i with
  | nop => rfl
  | reset => rfl
  | rd r => exact execRd_setTbl tbl s r
  | setw w => simp only [exec, execSetw, apply_ite (withTable tbl)]; rfl
  | setb b => simp only [exec, execSetb, apply_ite (withTable tbl)]; rfl
  | setk k => simp only [exec, execSetk, apply_ite (withTable tbl)]; rfl
  | cbegin => simp only [exec, execCbegin, apply_ite (withTable tbl)]; rfl
  | ebegin => simp only [exec, execEbegin, apply_ite (withTable tbl)]; rfl
  | push b => exact execPush_setTbl (hpush b rfl)
  | endStream => exact execEnd_setTbl (hend rfl)
  | srcerr => simp only [exec, execSrcerr, apply_ite (withTable tbl)]; rfl
  | symb first b => simp only [exec, execSymb, apply_ite (withTable tbl)]; rfl
  | rdcnt => simp only [exec, execRdcnt, apply_ite (withTable tbl)]; rfl
  | rdocc => simp only [exec, execRdocc, apply_ite (withTable tbl)]; rfl

end

end Sys2Proof.Machine
end

section
/-! SUPPORT. The canonical form of the counter arrays (R61): it lists the symbols that read above 0, in their order, so
the readings determine it. -/

namespace Sys2Proof.Machine

/-- The order of the cells of an array: that of their symbols. -/
abbrev cellBefore : Symbol × Nat → Symbol × Nat → Prop := Order.Preimage (fun e => rank e.1) (· < ·)

theorem Counters.pairwise_of_wf {c : Counters} (hc : c.wf = true) : c.Pairwise cellBefore := by
  induction c with
  | nil => exact .nil
  | cons e rest ih =>
    obtain ⟨-, hk, hr⟩ := (Counters.wf_cons e.1 e.2 rest).1 hc
    exact .cons hk (ih hr)

/-- No cell of a canonical array holds 0. -/
theorem Counters.ne_zero_of_mem {c : Counters} (hc : c.wf = true) {e : Symbol × Nat} (h : e ∈ c) : e.2 ≠ 0 := by
  induction c with
  | nil => simp at h
  | cons d rest ih =>
    obtain ⟨hv, -, hr⟩ := (Counters.wf_cons d.1 d.2 rest).1 hc
    rcases List.mem_cons.1 h with rfl | h
    · exact hv
    · exact ih hr h

/-- The cells of a canonical array are the symbols that read above 0, with what they read. -/
theorem Counters.mem_iff {c : Counters} (hc : c.wf = true) (e : Symbol × Nat) :
    e ∈ c ↔ c.get e.1 = e.2 ∧ e.2 ≠ 0 := by
  constructor
  · exact fun h => ⟨Counters.get_of_mem hc h, Counters.ne_zero_of_mem hc h⟩
  · rintro ⟨hget, hne⟩
    have hmem := Counters.mem_of_get (hget.trans_ne hne)
    rwa [hget] at hmem

theorem Counters.eq_of_get_eq {a b : Counters} (ha : a.wf = true) (hb : b.wf = true) (h : ∀ y, a.get y = b.get y) :
    a = b :=
  (Counters.pairwise_of_wf ha).eq_of_mem_iff (Counters.pairwise_of_wf hb)
    (fun e => by rw [Counters.mem_iff ha, Counters.mem_iff hb, h])

end Sys2Proof.Machine
end

section
/-! SUPPORT. The commands that only read. -/

namespace Sys2Proof.Machine

/-- A command that only reads writes nothing but the response port (R224, R226, R144, R205). -/
theorem exec_of_onlyReads {i : Instr} {s t : State} (hi : onlyReads i = true) (h : exec i s = .next t) :
    ∃ st d, t = s.answer st d := by
  rcases exec_refusal_or_effect h with rfl | he
  · exact ⟨_, _, rfl⟩
  cases he with
  | refusesArg _ => exact ⟨_, _, rfl⟩
  | reads _ d => exact ⟨_, _, rfl⟩
  | faults hf y k => rcases instr_of_mem_faultsListed hf with rfl | rfl | ⟨b, rfl⟩ <;> cases hi
  | counts _ hc => rcases hc with ⟨b, rfl, -⟩ | ⟨rfl, -⟩ <;> cases hi
  | moves _ hc v => rcases hc with ⟨b, rfl, -⟩ | ⟨rfl, -⟩ <;> cases hi
  | _ => cases hi

end Sys2Proof.Machine
end

section
/-! The obligations of this family. -/

open Sys2Proof Sys2Proof.Machine

/-- Settles O38: the command does the same with the other table, by `exec_setTbl`. -/
theorem oneTableReadPerSymbol : Obligations.OneTableReadPerSymbol := by
  intro i s t t' tbl hpush hend h h'
  have hsame : exec i (s.setTbl tbl) = withTable tbl (.next t) := h ▸ exec_setTbl hpush hend
  injection h'.symm.trans hsame

/-- Settles O47: a canonical array lists exactly the symbols that read above 0, in their order. -/
theorem equalReadingsAreEqualArrays : Obligations.EqualReadingsAreEqualArrays :=
  fun _ _ ha hb h => Counters.eq_of_get_eq ha hb h

/-- Settles O6: with no response waiting the step accepts the word and runs what it decodes to. -/
theorem stepRunsTheDecodedCommand : Obligations.StepRunsTheDecodedCommand := by
  intro s w rest hi hr
  have hstep : step s = runWord w (s.setInputs rest) :=
    (step_event hi).trans (acceptWord_taken (s := s.setInputs rest) hr w)
  exact ⟨fun i hd => hstep.trans (runWord_of_decode hd _), fun hd => hstep.trans (runWord_illegal hd _)⟩

/-- Settles O27: the four commands only read. -/
theorem readCommandsChangeOnlyTheResponse : Obligations.ReadCommandsChangeOnlyTheResponse := by
  intro i s t hi h
  have hreads : onlyReads i = true := by
    rcases hi with rfl | ⟨r, rfl⟩ | rfl | rfl <;> rfl
  obtain ⟨st, d, rfl⟩ := exec_of_onlyReads hreads h
  rfl

end

section
/-! SUPPORT. Words and commands (R91 to R94, R97, R98): the word of a command matches that command's row; a word is made
of its fields, so the bits a row fixes and the operands the row takes give the word back; the well-formed words are the
words of commands. -/

namespace Sys2Proof

/-! ### The row of a command (R94, R98) -/

theorem OpcodeRow.matchesWord_iff (r : OpcodeRow) (w : CommandWord) :
    r.matchesWord w = true ↔ w &&& r.mask = r.pattern := by
  rw [OpcodeRow.matchesWord, beq_iff_eq]

/-- The word of a command matches the row of the table at the command's place, which reads the command back. -/
theorem exists_row_of_encode (i : Instr) :
    ∃ r ∈ opcodeTable, r.matchesWord (encode i) = true ∧ r.command (encode i) = i := by
  simp only [OpcodeRow.matchesWord_iff]
  cases i with
  | nop => exact ⟨opcodeTable[0], List.getElem_mem _, rfl, rfl⟩
  | reset => exact ⟨opcodeTable[1], List.getElem_mem _, rfl, rfl⟩
  | rd r => exact ⟨opcodeTable[2], List.getElem_mem _, wordB_and 0x02 false r, congrArg Instr.rd (wordB_imm8 ..)⟩
  | setw w => exact ⟨opcodeTable[3], List.getElem_mem _, wordB_and 0x10 false w, congrArg Instr.setw (wordB_imm8 ..)⟩
  | setb b => exact ⟨opcodeTable[4], List.getElem_mem _, wordI_and 0x11 b, congrArg Instr.setb (wordI_imm24 ..)⟩
  | setk k => exact ⟨opcodeTable[5], List.getElem_mem _, wordI_and 0x12 k, congrArg Instr.setk (wordI_imm24 ..)⟩
  | cbegin => exact ⟨opcodeTable[6], List.getElem_mem _, rfl, rfl⟩
  | ebegin => exact ⟨opcodeTable[7], List.getElem_mem _, rfl, rfl⟩
  | push b => exact ⟨opcodeTable[8], List.getElem_mem _, wordB_and 0x22 false b, congrArg Instr.push (wordB_imm8 ..)⟩
  | endStream => exact ⟨opcodeTable[9], List.getElem_mem _, rfl, rfl⟩
  | srcerr => exact ⟨opcodeTable[10], List.getElem_mem _, rfl, rfl⟩
  | symb f b =>
    exact ⟨opcodeTable[11], List.getElem_mem _, wordB_and_flag 0x30 f b,
      congrArg₂ Instr.symb (wordB_flag ..) (wordB_imm8 ..)⟩
  | rdcnt => exact ⟨opcodeTable[12], List.getElem_mem _, rfl, rfl⟩
  | rdocc => exact ⟨opcodeTable[13], List.getElem_mem _, rfl, rfl⟩

theorem decode_encode (i : Instr) : decode (encode i) = some i := by
  obtain ⟨r, hr, hmatch, hcommand⟩ := exists_row_of_encode i
  rw [decode_of_row hr hmatch, hcommand]

/-! ### A word is made of its fields (R91, R92, R93) -/

theorem wordI_of_fields (w : CommandWord) : wordI (w.extractLsb' 24 8) w.imm24 = w := by
  have hw := w.isLt
  apply BitVec.eq_of_toNat_eq
  simp only [wordI_toNat, CommandWord.imm24, BitVec.extractLsb'_toNat, Nat.shiftRight_eq_div_pow]
  omega

theorem wordZ_of_fields {w : CommandWord} (h : w.extractLsb' 0 24 = 0) : wordZ (w.extractLsb' 24 8) = w := by
  have hw : wordI (w.extractLsb' 24 8) (w.extractLsb' 0 24) = w := wordI_of_fields w
  rwa [h] at hw

theorem flag_toNat (w : CommandWord) : w.flag.toNat = w.toNat / 2 ^ 8 % 2 := by
  rw [CommandWord.flag, BitVec.getLsbD, Nat.toNat_testBit]

theorem wordB_of_fields {w : CommandWord} (h : w.extractLsb' 9 15 = 0) :
    wordB (w.extractLsb' 24 8) w.flag w.imm8 = w := by
  have hw := w.isLt
  have hz : w.toNat / 2 ^ 9 % 2 ^ 15 = 0 := by
    simpa [Nat.shiftRight_eq_div_pow] using congrArg BitVec.toNat h
  apply BitVec.eq_of_toNat_eq
  simp only [wordB_toNat, flag_toNat, CommandWord.imm8, BitVec.extractLsb'_toNat, Nat.shiftRight_eq_div_pow]
  omega

theorem flag_eq_false {w : CommandWord} (h : w.extractLsb' 8 1 = 0) : w.flag = false := by
  have hz : w.toNat / 2 ^ 8 % 2 = 0 := by
    simpa [Nat.shiftRight_eq_div_pow] using congrArg BitVec.toNat h
  rw [CommandWord.flag, BitVec.getLsbD, Nat.testBit_eq_decide_div_mod_eq, hz]
  rfl

/-! ### The word that matches a row (R98) -/

/-- A field the mask covers is the pattern's. -/
theorem extractLsb'_of_masked {w m p : CommandWord} (h : w &&& m = p) {lo n : Nat}
    (hm : m.extractLsb' lo n = BitVec.allOnes n) : w.extractLsb' lo n = p.extractLsb' lo n := by
  rw [← h, BitVec.extractLsb'_and, hm, BitVec.and_allOnes]

theorem wordZ_of_masked {w p : CommandWord} (h : w &&& 0xFFFFFFFF#32 = p) : p = w :=
  h.symm.trans BitVec.and_allOnes

theorem wordI_of_masked {w p : CommandWord} (h : w &&& 0xFF000000#32 = p) {op : Byte}
    (hop : p.extractLsb' 24 8 = op) : wordI op w.imm24 = w := by
  rw [← hop, ← extractLsb'_of_masked h (by decide), wordI_of_fields]

/-- The mask of `SYMB`: the flag is an operand. -/
theorem wordB_of_masked_flag {w p : CommandWord} (h : w &&& 0xFFFFFE00#32 = p) {op : Byte}
    (hop : p.extractLsb' 24 8 = op) (hz : p.extractLsb' 9 15 = 0) : wordB op w.flag w.imm8 = w := by
  rw [← hop, ← extractLsb'_of_masked h (by decide), wordB_of_fields ((extractLsb'_of_masked h (by decide)).trans hz)]

/-- The mask of format B without a flag: bit 8 is fixed as well. -/
theorem wordB_of_masked {w p : CommandWord} (h : w &&& 0xFFFFFF00#32 = p) {op : Byte}
    (hop : p.extractLsb' 24 8 = op) (hz : p.extractLsb' 9 15 = 0) (hf : p.extractLsb' 8 1 = 0) :
    wordB op false w.imm8 = w := by
  have hflag : w.flag = false := flag_eq_false ((extractLsb'_of_masked h (by decide)).trans hf)
  rw [← hop, ← extractLsb'_of_masked h (by decide), ← hflag,
    wordB_of_fields ((extractLsb'_of_masked h (by decide)).trans hz)]

/-- The command a row reads from a word of its own has that word; the rows in the order of the table. -/
theorem encode_command {r : OpcodeRow} (hr : r ∈ opcodeTable) {w : CommandWord} (h : r.matchesWord w = true) :
    encode (r.command w) = w := by
  rw [OpcodeRow.matchesWord_iff] at h
  simp only [opcodeTable, List.mem_cons, List.not_mem_nil, or_false] at hr
  rcases hr with rfl | rfl | rfl | rfl | rfl | rfl | rfl | rfl | rfl | rfl | rfl | rfl | rfl | rfl
  · exact wordZ_of_masked h
  · exact wordZ_of_masked h
  · exact wordB_of_masked h rfl rfl rfl
  · exact wordB_of_masked h rfl rfl rfl
  · exact wordI_of_masked h rfl
  · exact wordI_of_masked h rfl
  · exact wordZ_of_masked h
  · exact wordZ_of_masked h
  · exact wordB_of_masked h rfl rfl rfl
  · exact wordZ_of_masked h
  · exact wordZ_of_masked h
  · exact wordB_of_masked_flag h rfl rfl
  · exact wordZ_of_masked h
  · exact wordZ_of_masked h

/-! ### The well-formed words are the words of commands (R97) -/

/-- R94: the opcodes of format Z. -/
theorem exists_encode_eq_wordZ {op : Byte} (h : commandFormat op.toNat = some .z) : ∃ i, encode i = wordZ op := by
  have hop : op ∈ ([0x00, 0x01, 0x20, 0x21, 0x23, 0x24, 0x31, 0x32] : List Byte) := by
    revert op; decide
  simp only [List.mem_cons, List.not_mem_nil, or_false] at hop
  rcases hop with rfl | rfl | rfl | rfl | rfl | rfl | rfl | rfl
  exacts [⟨.nop, rfl⟩, ⟨.reset, rfl⟩, ⟨.cbegin, rfl⟩, ⟨.ebegin, rfl⟩, ⟨.endStream, rfl⟩, ⟨.srcerr, rfl⟩, ⟨.rdcnt, rfl⟩,
    ⟨.rdocc, rfl⟩]

/-- R94: the opcodes of format B, of which `SYMB` alone has a flag. -/
theorem exists_encode_eq_wordB {op : Byte} {flag f : Bool} (h : commandFormat op.toNat = some (.b flag))
    (hf : flag = false → f = false) (b : Byte) : ∃ i, encode i = wordB op f b := by
  have hop : (flag = false ∧ (op = 0x02 ∨ op = 0x10 ∨ op = 0x22)) ∨ op = 0x30 := by
    clear hf; revert op flag; decide
  rcases hop with ⟨hflag, hop⟩ | rfl
  · rw [hf hflag]
    rcases hop with rfl | rfl | rfl
    exacts [⟨.rd b, rfl⟩, ⟨.setw b, rfl⟩, ⟨.push b, rfl⟩]
  · exact ⟨.symb f b, rfl⟩

/-- R94: the opcodes of format I. -/
theorem exists_encode_eq_wordI {op : Byte} (h : commandFormat op.toNat = some .i) (v : Imm24) :
    ∃ i, encode i = wordI op v := by
  have hop : op = 0x11 ∨ op = 0x12 := by
    revert op; decide
  rcases hop with rfl | rfl
  exacts [⟨.setb v, rfl⟩, ⟨.setk v, rfl⟩]

theorem exists_encode_of_wellFormed {w : CommandWord} (h : w.wellFormed = true) : ∃ i, encode i = w := by
  unfold CommandWord.wellFormed at h
  split at h
  case h_1 => cases h
  case h_2 hformat =>
    have hw := exists_encode_eq_wordZ hformat
    rwa [wordZ_of_fields (beq_iff_eq.1 h)] at hw
  case h_3 flag hformat =>
    obtain ⟨hz, hf⟩ : w.extractLsb' 9 15 = 0 ∧ (flag = true ∨ w.extractLsb' 8 1 = 0) := by simpa using h
    have hflag : flag = false → w.flag = false := fun hc => flag_eq_false (hf.resolve_left (by simp [hc]))
    have hw := exists_encode_eq_wordB hformat hflag w.imm8
    rwa [wordB_of_fields hz] at hw
  case h_4 hformat =>
    have hw := exists_encode_eq_wordI hformat w.imm24
    rwa [wordI_of_fields] at hw

theorem encode_wellFormed (i : Instr) : (encode i).wellFormed = true := by
  open Laws.EncodeWellFormed in
  cases i with
  | nop => exact nop
  | reset => exact reset
  | rd r => exact rd r
  | setw w => exact setw w
  | setb b => exact setb b
  | setk k => exact setk k
  | cbegin => exact cbegin
  | ebegin => exact ebegin
  | push b => exact push b
  | endStream => exact endStream
  | srcerr => exact srcerr
  | symb f b => exact symb f b
  | rdcnt => exact rdcnt
  | rdocc => exact rdocc

theorem encode_of_decode {w : CommandWord} {i : Instr} (h : decode w = some i) : encode i = w := by
  obtain ⟨r, hr, hmatch, rfl⟩ := row_of_decode h
  exact encode_command hr hmatch

/-- The decoder's masks accept the words the formats allow (R97, R98). -/
theorem wellFormed_iff_exists_decode (w : CommandWord) : w.wellFormed = true ↔ ∃ i, decode w = some i := by
  constructor
  · intro h
    obtain ⟨i, rfl⟩ := exists_encode_of_wellFormed h
    exact ⟨i, decode_encode i⟩
  · rintro ⟨i, h⟩
    exact encode_of_decode h ▸ encode_wellFormed i

end Sys2Proof
end

section
/-! The obligations of this family. -/

open Sys2Proof Sys2Proof.Machine

/-- Settles O1: the word of a command matches that command's row, and the rows do not overlap. -/
theorem decodeEncodeRoundTrip : Obligations.DecodeEncodeRoundTrip :=
  decode_encode

/-- Settles O2: the bits a row fixes and the operands it takes are the whole word. -/
theorem encodeOfDecodedWord : Obligations.EncodeOfDecodedWord :=
  fun _ _ h => encode_of_decode h

/-- Settles O3: two different rows differ in a bit that both masks fix. -/
theorem opcodeRowsNeverOverlap : Obligations.OpcodeRowsNeverOverlap :=
  fun _ => opcodeTable_rows_differ.imp fun hdiffer ⟨ha, hb⟩ => hdiffer (OpcodeRow.agree ha hb)

/-- Settles O4: the well-formed words are the words that decode. -/
theorem illegalWordsReplyIllegal : Obligations.IllegalWordsReplyIllegal := by
  refine fun w => ⟨fun hw => ?_, fun hw s => ?_⟩
  · obtain ⟨i, hi⟩ := (wellFormed_iff_exists_decode w).1 hw
    exact ⟨i, hi, runWord_of_decode hi⟩
  · have hnone : decode w = none := by
      rw [Option.eq_none_iff_forall_ne_some]
      intro i hi
      exact Bool.eq_false_iff.1 hw ((wellFormed_iff_exists_decode w).2 ⟨i, hi⟩)
    exact runWord_illegal hnone s

/-- Settles O5: each word is looked up in the opcode table. -/
theorem specWordsDecode : Obligations.SpecWordsDecode := by
  unfold Obligations.SpecWordsDecode
  decide

end

section
/-! SUPPORT. The chunks of a byte stream (R120, R128). -/

namespace Sys2Proof.Machine

@[simp] theorem chunksFrom_nil_nil (w : Nat) : chunksFrom w [] [] = [] := rfl

theorem chunksFrom_nil {buf : Symbol} (hb : buf ≠ []) (w : Nat) : chunksFrom w buf [] = [buf] := if_neg hb

theorem chunksFrom_cons_of_lt {w : Nat} {buf : Symbol} (h : buf.length + 1 < w) (b : Byte) (rest : List Byte) :
    chunksFrom w buf (b :: rest) = chunksFrom w (buf ++ [b]) rest :=
  if_pos (by simpa using h)

theorem chunksFrom_cons_of_le {w : Nat} {buf : Symbol} (h : w ≤ buf.length + 1) (b : Byte) (rest : List Byte) :
    chunksFrom w buf (b :: rest) = (buf ++ [b]) :: chunksFrom w [] rest :=
  if_neg (by simpa using h)

/-- The chunks put together are what was read and what is still to come. -/
theorem chunksFrom_flatten (w : Nat) (buf : Symbol) (bytes : List Byte) :
    (chunksFrom w buf bytes).flatten = buf ++ bytes := by
  induction bytes generalizing buf with
  | nil =>
    by_cases hb : buf = []
    · simp [hb]
    · simp [chunksFrom_nil hb]
  | cons b rest ih =>
    rcases Nat.lt_or_ge (buf.length + 1) w with hlt | hle
    · simp [chunksFrom_cons_of_lt hlt, ih]
    · simp [chunksFrom_cons_of_le hle, ih]

/-- The sizes a stream of `n` bytes has in chunks of width `w`: the last chunk takes what the full ones leave, at least
one byte (R128). -/
structure ChunkSizes (w n : Nat) (ys : List Symbol) : Prop where
  full : ∀ y ∈ ys.dropLast, y.length = w
  last : ∀ y, ys.getLast? = some y → 1 ≤ y.length ∧ y.length ≤ w
  total : ys.flatten.length = n

/-- A full chunk before the others. -/
theorem ChunkSizes.cons {w n : Nat} {ys : List Symbol} (h : ChunkSizes w n ys) (hw : 1 ≤ w) {y : Symbol}
    (hy : y.length = w) : ChunkSizes w (w + n) (y :: ys) := by
  obtain ⟨hfull, hlast, htotal⟩ := h
  refine ⟨?_, ?_, by simp [htotal, hy]⟩
  · cases ys with
    | nil => simp
    | cons z zs => simpa [hy] using hfull
  · cases ys with
    | nil => simp [hy, hw]
    | cons z zs => simpa using hlast

/-- The chunks have the sizes of R128, whatever part of a chunk has been read. -/
theorem chunksFrom_sizes {w : Nat} {buf : Symbol} (hb : buf.length < w) (bytes : List Byte) :
    ChunkSizes w (buf.length + bytes.length) (chunksFrom w buf bytes) := by
  induction bytes generalizing buf with
  | nil =>
    by_cases hnil : buf = []
    · subst hnil
      exact ⟨by simp, by simp, by simp⟩
    · have := List.length_pos_iff.2 hnil
      rw [chunksFrom_nil hnil]
      exact ⟨by simp, by simp; omega, by simp⟩
  | cons b rest ih =>
    rcases Nat.lt_or_ge (buf.length + 1) w with hlt | hle
    · rw [chunksFrom_cons_of_lt hlt]
      simpa [Nat.add_assoc, Nat.add_comm 1] using ih (buf := buf ++ [b]) (by simpa using hlt)
    · rw [chunksFrom_cons_of_le hle]
      have hlen : (buf ++ [b]).length = w := by simp; omega
      have hcons := (ih (buf := []) (by simp; omega)).cons (by omega) hlen
      convert hcons using 1
      simp
      omega

namespace ChunkSizes

variable {w n : Nat} {ys : List Symbol} (h : ChunkSizes w n ys)
include h

/-- The stream is its full chunks and the last one. -/
theorem eq_mul_add {y : Symbol} (hy : ys.getLast? = some y) : n = (ys.length - 1) * w + y.length := by
  obtain ⟨hfull, -, htotal⟩ := h
  obtain ⟨zs, rfl⟩ := List.getLast?_eq_some_iff.1 hy
  have hzs : (zs.map List.length).sum = zs.length * w := by
    simpa using List.sum_eq_card_nsmul (zs.map List.length) w (by simpa using hfull)
  simpa [List.length_flatten, hzs] using htotal.symm

/-- There are `ceil(n / w)` chunks (R128). -/
theorem length_eq (hw : 1 ≤ w) : ys.length = (n + w - 1) / w := by
  cases hy : ys.getLast? with
  | none =>
    obtain rfl := List.getLast?_eq_none_iff.1 hy
    have hn : n = 0 := h.total.symm
    rw [hn, Nat.div_eq_of_lt (by omega), List.length_nil]
  | some y =>
    obtain ⟨h1, hle⟩ := h.last y hy
    have hpos := List.length_pos_of_mem (List.mem_of_getLast? hy)
    have hsplit : n + w - 1 = (y.length - 1) + w * (ys.length - 1 + 1) := by
      rw [h.eq_mul_add hy, Nat.mul_comm w, Nat.succ_mul]
      omega
    rw [hsplit, Nat.add_mul_div_left _ _ hw, Nat.div_eq_of_lt (by omega)]
    omega

/-- The last chunk takes the remainder, or the full width if there is none (R128). -/
theorem last_length_eq {y : Symbol} (hy : ys.getLast? = some y) : y.length = if n % w = 0 then w else n % w := by
  obtain ⟨h1, hle⟩ := h.last y hy
  have hmod : n % w = y.length % w := by rw [h.eq_mul_add hy, Nat.mul_add_mod_self_right]
  rcases Nat.lt_or_eq_of_le hle with hlt | heq
  · rw [hmod, Nat.mod_eq_of_lt hlt, if_neg (by omega)]
  · rw [hmod, heq, Nat.mod_self, if_pos rfl]

end ChunkSizes

end Sys2Proof.Machine
end

section
/-! SUPPORT. `PUSH`, `END` and `SRCERR`, one equation per case (R123, R125, R127), with the outcomes of the symbol a
`PUSH` or `END` completes (R122, R142, R203, R250). -/

namespace Sys2Proof.Machine

theorem Phase.inPass_eq_false {p : Phase} (hc : p ≠ .count) (he : p ≠ .encode) : p.inPass = false := by
  simpa [hc, he] using (Phase.inPass_iff p).not

/-! ### The completed symbol -/

/-- How a `PUSH` or `END` that completes the symbol `y` ends, `last` its last update. -/
def completeSymbol (y : Symbol) (s : State) (last : State → State) : Result :=
  finishEmit (emit y (s.setBuf [])) (s.setBuf []) last

section
variable {s : State} {y : Symbol} (last : State → State)

theorem completeSymbol_of_count (hp : s.phase = .count) :
    completeSymbol y s last = finishEmit (countSym y (s.setBuf [])) (s.setBuf []) last := by
  rw [completeSymbol, emit_count (s := s.setBuf []) hp]

theorem completeSymbol_of_encode (hp : s.phase = .encode) :
    completeSymbol y s last = finishEmit (encSym y (s.setBuf [])) (s.setBuf []) last := by
  rw [completeSymbol, emit_encode (s := s.setBuf []) hp]

/-- COUNTSYM with room (R142). -/
theorem completeSymbol_counts (hp : s.phase = .count) (hn : s.ntot ≠ counterMax s.build) :
    completeSymbol y s last =
      .next ((last ((s.setBuf []).countUp y (s.cnt.get y + 1))).answer .sym (s.cnt.get y + 1)) := by
  have he : countSym y (s.setBuf []) = .done ((s.setBuf []).countUp y (s.cnt.get y + 1)) (s.cnt.get y + 1) :=
    if_neg hn
  rw [completeSymbol_of_count last hp, he, finishEmit_done]

/-- COUNTSYM with NTOT at `2^CW - 1` (R142, R244). -/
theorem completeSymbol_total_full (hp : s.phase = .count) (hn : s.ntot = counterMax s.build) :
    completeSymbol y s last = .next (faulted s .counterOverflow y (s.cnt.get y)) := by
  have he : countSym y (s.setBuf []) = .raised .counterOverflow y (s.cnt.get y) := if_pos hn
  rw [completeSymbol_of_count last hp, he]
  rfl

/-- ENCSYM, first check of R250: OCC[y] is at `2^CW - 1` (R244). -/
theorem completeSymbol_index_full (hp : s.phase = .encode) (hk : s.occ.get y = counterMax s.build) :
    completeSymbol y s last = .next (faulted s .counterOverflow y (s.occ.get y)) := by
  have he : encSym y (s.setBuf []) = .raised .counterOverflow y (s.occ.get y) := if_pos hk
  rw [completeSymbol_of_encode last hp, he]
  rfl

/-- ENCSYM, second check of R250: no entry at the next key (R243). -/
theorem completeSymbol_absent (hp : s.phase = .encode) (hk : s.occ.get y ≠ counterMax s.build)
    (hr : s.tbl.read y (s.occ.get y + 1) = none) :
    completeSymbol y s last = .next (faulted s .unknownSymbolOccurrence y (s.occ.get y + 1)) := by
  have he : encSym y (s.setBuf []) = .raised .unknownSymbolOccurrence y (s.occ.get y + 1) := by
    simp [encSym, hk, hr]
  rw [completeSymbol_of_encode last hp, he]
  rfl

/-- ENCSYM, third check of R250: the slot lies outside the working interval (R246). -/
theorem completeSymbol_outside (hp : s.phase = .encode) (v : Nat) (hk : s.occ.get y ≠ counterMax s.build)
    (hr : s.tbl.read y (s.occ.get y + 1) = some v) (hv : v < s.tsize ∨ s.base.toNat * s.tsize ≤ v) :
    completeSymbol y s last = .next (faulted s .tableRange y (s.occ.get y + 1)) := by
  have he : encSym y (s.setBuf []) = .raised .tableRange y (s.occ.get y + 1) := by
    simp [encSym, hk, hr, outOfInterval_iff, hv]
  rw [completeSymbol_of_encode last hp, he]
  rfl

/-- ENCSYM past its checks (R203). -/
theorem completeSymbol_moves (hp : s.phase = .encode) (v : Nat) (hk : s.occ.get y ≠ counterMax s.build)
    (hr : s.tbl.read y (s.occ.get y + 1) = some v) (hl : s.tsize ≤ v) (hu : v < s.base.toNat * s.tsize) :
    completeSymbol y s last = .next ((last ((s.setBuf []).moveTo v y (s.occ.get y + 1))).answer .sym v) := by
  have he : encSym y (s.setBuf []) = .done ((s.setBuf []).moveTo v y (s.occ.get y + 1)) v := by
    simp [encSym, hk, hr, outOfInterval_iff, hl, hu]
  rw [completeSymbol_of_encode last hp, he, finishEmit_done]

end

/-! ### The three commands -/

section
variable {s : State}

theorem exec_push_refused (hp : s.phase.inPass = false) (b : Byte) :
    exec (.push b) s = .next (s.answer .refusedPhase 0) :=
  if_neg (by simp [hp])

theorem exec_push_fills (hp : s.phase.inPass = true) (b : Byte) (hlt : s.buf.length + 1 < s.w.toNat) :
    exec (.push b) s = .next ((s.setBuf (s.buf ++ [b])).answer .ok 0) :=
  (if_pos hp).trans (if_pos (by simpa using hlt))

theorem exec_push_completes (hp : s.phase.inPass = true) (b : Byte) (hle : s.w.toNat ≤ s.buf.length + 1) :
    exec (.push b) s = completeSymbol (s.buf ++ [b]) s id :=
  (if_pos hp).trans (if_neg (by simpa using hle))

theorem exec_endStream_refused (hp : s.phase.inPass = false) : exec .endStream s = .next (s.answer .refusedPhase 0) :=
  if_neg (by simp [hp])

theorem exec_endStream_closes (hp : s.phase.inPass = true) (hb : s.buf = []) :
    exec .endStream s = .next ((s.setPhase s.phase.afterEnd).answer .ok 0) :=
  (if_pos hp).trans (if_pos hb)

theorem exec_endStream_completes (hp : s.phase.inPass = true) (hb : s.buf ≠ []) :
    exec .endStream s = completeSymbol s.buf s (fun t => t.setPhase s.phase.afterEnd) :=
  (if_pos hp).trans (if_neg hb)

theorem exec_srcerr_refused (hp : s.phase.inPass = false) : exec .srcerr s = .next (s.answer .refusedPhase 0) :=
  if_neg (by simp [hp])

theorem exec_srcerr_faults (hp : s.phase.inPass = true) :
    exec .srcerr s = .next (faulted s .sourceReadError [] 0) :=
  if_pos hp

end

/-! ### Frames -/

namespace CompletesSymbol

variable {s : State} {i : Instr} {y : Symbol} {p : Phase} (h : CompletesSymbol s i y p)
include h

theorem ne_idle (hs : s.phase ≠ .idle) : p ≠ .idle := by
  rcases h with ⟨b, -, -, rfl⟩ | ⟨-, -, rfl⟩
  · exact hs
  · exact (Phase.afterEnd_ne _).1

theorem ne_of_other {z : Symbol} (hpush : ∀ b, i = .push b → z ≠ s.buf ++ [b])
    (hend : i = .endStream → z ≠ s.buf) : y ≠ z := by
  rcases h with ⟨b, hi, rfl, -⟩ | ⟨hi, rfl, -⟩
  · exact (hpush b hi).symm
  · exact (hend hi).symm

end CompletesSymbol

/-- Outside IDLE no command but `RESET` changes the width or leads back to IDLE (R121). -/
theorem exec_keeps_width {i : Instr} {s t : State} (hs : s.phase ≠ .idle) (hi : i ≠ .reset) (h : exec i s = .next t) :
    t.w = s.w ∧ t.phase ≠ .idle := by
  rcases exec_listedOrRefused i s with ⟨-, he⟩ | ⟨hp, u, hu, he⟩ <;> cases he.symm.trans h
  · exact ⟨rfl, hs⟩
  cases hu with
  | resets => exact absurd rfl hi
  | setsWidth w => exact absurd ((mem_listedPhases_setw w _).1 hp) hs
  | closes => exact ⟨rfl, (Phase.afterEnd_ne _).1⟩
  | counts _ hc => exact ⟨rfl, hc.ne_idle hs⟩
  | moves _ hc v => exact ⟨rfl, hc.ne_idle hs⟩
  | _ => simp [hs]

end Sys2Proof.Machine
end

section
/-! SUPPORT. Runs of commands with the data of their SYM responses (R75, R95), and the count pass over a stream (R128,
R142). -/

namespace Sys2Proof.Machine

/-! ### Runs -/

/-- The commands `is` lead from `s` to `t`, and their SYM responses carry the data `ds`, in order. -/
def Runs (is : List Instr) (s : State) (ds : List Nat) (t : State) : Prop :=
  runCommands is s = .next t ∧ symData (responses is s) = ds

namespace Runs

variable {i : Instr} {is : List Instr} {s u t : State} {ds : List Nat} {d : Nat}

theorem nil (s : State) : Runs [] s [] s := ⟨rfl, rfl⟩

theorem cons_sym (h : exec i s = .next (u.answer .sym d)) (hrest : Runs is (u.answer .sym d) ds t) :
    Runs (i :: is) s (d :: ds) t := by
  obtain ⟨hrun, hdata⟩ := hrest
  simp [Runs, runCommands, responses, h, hrun, symData, ← hdata]

theorem cons_other {st : Status} (h : exec i s = .next (u.answer st d)) (hst : st ≠ .sym)
    (hrest : Runs is (u.answer st d) ds t) : Runs (i :: is) s ds t := by
  obtain ⟨hrun, hdata⟩ := hrest
  cases st <;> simp [Runs, runCommands, responses, h, hrun, symData, ← hdata] at hst ⊢

end Runs

/-! ### The count pass -/

/-- `t` closes a count pass that had come to `s` and still counted the symbols `ys`. -/
structure ClosesCount (s : State) (ys : List Symbol) (t : State) : Prop where
  phase_eq : t.phase = .counted
  buf_eq : t.buf = []
  cnt_get : ∀ y, t.cnt.get y = s.cnt.get y + ys.count y
  ntot_eq : t.ntot = s.ntot + ys.length
  w_eq : t.w = s.w
  base_eq : t.base = s.base
  scale_eq : t.scale = s.scale
  sop_eq : t.sop = s.sop

/-- The array after one more `y` reads as `y` counts (R142). -/
theorem Counters.get_set_succ {c : Counters} (hc : c.wf = true) (y z : Symbol) :
    (c.set y (c.get y + 1)).get z = c.get z + [y].count z := by
  rw [Counters.get_set hc, List.count_singleton]
  by_cases h : y = z <;> simp [h]

theorem ClosesCount.cons {s t : State} {y : Symbol} {ys : List Symbol} {st : Status} {d : Nat}
    (hwf : s.cnt.wf = true)
    (h : ClosesCount (((s.setBuf []).countUp y (s.cnt.get y + 1)).answer st d) ys t) :
    ClosesCount s (y :: ys) t :=
  { h with
    cnt_get := fun z => by
      rw [h.cnt_get z, List.count_cons, State.answer_cnt, State.countUp_cnt, State.setBuf_cnt,
        Counters.get_set_succ hwf, List.count_singleton]
      omega
    ntot_eq := by
      rw [h.ntot_eq, State.answer_ntot, State.countUp_ntot, State.setBuf_ntot, List.length_cons]
      omega }

/-- From inside a count pass the rest of a stream and `END` count the chunks still to come, if the counters can hold
them, with one SYM response each: a byte fills the buffer or completes a chunk, and `END` flushes what is left. -/
theorem runs_rest_of_count {bytes : List Byte} {s : State} (hp : s.phase = .count) (hwf : s.cnt.wf = true)
    (hroom : s.ntot + (chunksFrom s.w.toNat s.buf bytes).length ≤ counterMax s.build) :
    ∃ ds t, Runs (pushs bytes ++ [.endStream]) s ds t ∧ ds.length = (chunksFrom s.w.toNat s.buf bytes).length ∧
      ClosesCount s (chunksFrom s.w.toNat s.buf bytes) t := by
  have hpass : s.phase.inPass = true := (Phase.inPass_iff _).2 (.inl hp)
  induction bytes generalizing s with
  | nil =>
    by_cases hb : s.buf = []
    · have hend := exec_endStream_closes hpass hb
      rw [hb, chunksFrom_nil_nil]
      refine ⟨[], _, .cons_other hend (by decide) (.nil _), rfl, ?_⟩
      constructor <;> simp [hp, hb, Phase.afterEnd]
    · rw [chunksFrom_nil hb] at hroom ⊢
      have hn : s.ntot ≠ counterMax s.build := by simp at hroom; omega
      have hend := (exec_endStream_completes hpass hb).trans (completeSymbol_counts _ hp hn)
      refine ⟨[_], _, .cons_sym hend (.nil _), rfl, ?_⟩
      constructor <;> simp [hp, Phase.afterEnd, Counters.get_set_succ hwf]
  | cons b rest ih =>
    rcases Nat.lt_or_ge (s.buf.length + 1) s.w.toNat with hlt | hle
    · rw [chunksFrom_cons_of_lt hlt] at hroom ⊢
      obtain ⟨ds, t, hrun, hlen, ht⟩ := ih (s := (s.setBuf (s.buf ++ [b])).answer .ok 0) hp hwf hroom hpass
      exact ⟨ds, t, .cons_other (exec_push_fills hpass b hlt) (by decide) hrun, hlen, { ht with }⟩
    · rw [chunksFrom_cons_of_le hle] at hroom ⊢
      rw [List.length_cons] at hroom
      have hn : s.ntot ≠ counterMax s.build := by omega
      have hpush := (exec_push_completes hpass b hle).trans (completeSymbol_counts id hp hn)
      obtain ⟨ds, t, hrun, hlen, ht⟩ := ih (s := (((s.setBuf []).countUp (s.buf ++ [b]) _).answer .sym _)) hp
        (Counters.wf_set hwf _ _) (by simp; omega) hpass
      exact ⟨_ :: ds, t, .cons_sym hpush hrun, by simpa using hlen, ht.cons hwf⟩

/-- A count pass opens with an empty buffer and counts every chunk of its stream (R128, R141). -/
theorem runs_countPass {bytes : List Byte} {s : State} (hp : s.phase.mayCount = true)
    (hroom : (chunks s.w.toNat bytes).length ≤ counterMax s.build) :
    ∃ ds t, Runs (countPass bytes) s ds t ∧ ds.length = (chunks s.w.toNat bytes).length ∧
      ClosesCount s.openCount (chunks s.w.toNat bytes) t := by
  have hopen : exec .cbegin s = .next (s.openCount.answer .ok 0) := if_pos hp
  obtain ⟨ds, t, hrun, hlen, ht⟩ := runs_rest_of_count (s := s.openCount.answer .ok 0) (bytes := bytes) rfl rfl
    (by simpa [chunks] using hroom)
  exact ⟨ds, t, hrun.cons_other hopen (by decide), hlen, { ht with }⟩

end Sys2Proof.Machine
end

section
/-! The obligations of this family. -/

open Sys2Proof Sys2Proof.Machine

/-- Settles O29: of the effects a command of a pass can have only a count writes the histogram and only a move the
encoder's registers, each at the symbol completed and with a response SYM. -/
theorem streamCommandsFrame : Obligations.StreamCommandsFrame := by
  intro i s t hi h
  rcases exec_refusal_or_effect h with rfl | he
  · simp
  cases he with
  | counts hp hc =>
    refine ⟨by simp, by simp, absurd hp, fun hsym => absurd rfl (hsym _), fun hcnt _ z hpush hend => ⟨?_, rfl⟩⟩
    exact Counters.get_set_other hcnt (hc.ne_of_other hpush hend) _
  | moves hp hc v =>
    refine ⟨by simp, by simp [hp], by simp, fun hsym => absurd rfl (hsym _), fun _ hocc z hpush hend => ⟨rfl, ?_⟩⟩
    exact Counters.get_set_other hocc (hc.ne_of_other hpush hend) _
  | refusesArg _ | reads _ _ | fills _ | closes | faults _ _ _ => simp
  | _ => simp at hi

/-- Settles O50: the chunks have the sizes of `ChunkSizes`, which fix their number and the last length. -/
theorem chunksReproduceTheStream : Obligations.ChunksReproduceTheStream := by
  intro w bytes hw
  have hsizes : ChunkSizes w bytes.length (chunks w bytes) := by
    simpa [chunks] using chunksFrom_sizes (buf := []) hw bytes
  exact ⟨chunksFrom_flatten w [] bytes, hsizes.length_eq hw, hsizes.full, fun _ hy => hsizes.last_length_eq hy⟩

/-- Settles O51: the pass starts from counters that read 0. -/
theorem countPassCountsTheChunks : Obligations.CountPassCountsTheChunks := by
  intro s bytes _ hp hroom
  obtain ⟨ds, t, ⟨hrun, hdata⟩, hlen, ht⟩ := runs_countPass hp hroom
  exact ⟨t, hrun, ht.phase_eq, ht.buf_eq, fun y => by simpa using ht.cnt_get y, by simpa using ht.ntot_eq,
    hdata ▸ hlen, ht.w_eq, ht.base_eq, ht.scale_eq, ht.sop_eq⟩

/-- Settles O12: the cases of `SETW`, and what the effects of the other commands say of the width and the phase. -/
theorem setwSetsTheWidth : Obligations.SetwSetsTheWidth := by
  intro w s
  refine ⟨wordB_toNat 0x10 false w, fun hp => if_neg hp, fun hp hw => (if_pos hp).trans (if_pos hw), ?_,
    fun i t hs hi h => exec_keeps_width hs hi h⟩
  exact fun hp h1 hw => (if_pos hp).trans (if_neg (by omega))

/-- Settles O17: two cases of `PUSH`. -/
theorem pushFillsTheBuffer : Obligations.PushFillsTheBuffer := by
  intro b s
  exact ⟨wordB_toNat 0x22 false b, fun hc he => exec_push_refused (Phase.inPass_eq_false hc he) b,
    fun hp hlt => exec_push_fills ((Phase.inPass_iff _).2 hp) b hlt⟩

/-- Settles O18: two cases of `END`, and the phase it leaves either pass in. -/
theorem endClosesAPass : Obligations.EndClosesAPass := by
  intro s
  refine ⟨rfl, fun hc he => exec_endStream_refused (Phase.inPass_eq_false hc he), ?_, ?_⟩
  · intro hp hb
    rw [exec_endStream_closes ((Phase.inPass_iff _).2 (.inl hp)) hb, hp]
    rfl
  · intro hp hb
    rw [exec_endStream_closes ((Phase.inPass_iff _).2 (.inr hp)) hb, hp]
    rfl

/-- Settles O19: the two outcomes of COUNTSYM. -/
theorem pushCountsTheSymbol : Obligations.PushCountsTheSymbol := by
  rintro b s _ hp hle rfl
  rw [exec_push_completes ((Phase.inPass_iff _).2 (.inl hp)) b hle]
  exact ⟨completeSymbol_counts id hp, completeSymbol_total_full id hp⟩

/-- Settles O20: the two outcomes of COUNTSYM, then the last update of `END`. -/
theorem endCountsTheShortSymbol : Obligations.EndCountsTheShortSymbol := by
  intro s hp hb
  rw [exec_endStream_completes ((Phase.inPass_iff _).2 (.inl hp)) hb, hp]
  exact ⟨completeSymbol_counts _ hp, completeSymbol_total_full _ hp⟩

/-- Settles O21: the four outcomes of ENCSYM. -/
theorem pushEncodesTheSymbol : Obligations.PushEncodesTheSymbol := by
  rintro b s _ _ hp hle rfl rfl
  rw [exec_push_completes ((Phase.inPass_iff _).2 (.inr hp)) b hle]
  exact ⟨completeSymbol_index_full id hp, completeSymbol_absent id hp, completeSymbol_outside id hp,
    completeSymbol_moves id hp⟩

/-- Settles O22: the four outcomes of ENCSYM, then the last update of `END`. -/
theorem endEncodesTheShortSymbol : Obligations.EndEncodesTheShortSymbol := by
  rintro s _ hp hb rfl
  rw [exec_endStream_completes ((Phase.inPass_iff _).2 (.inr hp)) hb, hp]
  exact ⟨completeSymbol_index_full _ hp, completeSymbol_absent _ hp, completeSymbol_outside _ hp,
    completeSymbol_moves _ hp⟩

/-- Settles O23: the two cases of `SRCERR`. -/
theorem srcerrFaultsThePass : Obligations.SrcerrFaultsThePass := by
  intro s
  exact ⟨rfl, fun hc he => exec_srcerr_refused (Phase.inPass_eq_false hc he),
    fun hp => exec_srcerr_faults ((Phase.inPass_iff _).2 hp)⟩

/-- Settles O28, by the inversion lemma of each command. -/
theorem configurationCommandsFrame : Obligations.ConfigurationCommandsFrame := by
  intro s t
  refine ⟨fun w h => ?setw, fun b h => ?setb, fun k h => ?setk, fun first b h => ?symb⟩
  case setw => rcases execSetw_cases w s with ⟨-, he⟩ | ⟨-, -, he⟩ | ⟨-, -, -, he⟩ <;> cases he.symm.trans h <;> rfl
  case setb => rcases execSetb_cases b s with ⟨-, he⟩ | ⟨-, -, he⟩ | ⟨-, -, he⟩ <;> cases he.symm.trans h <;> rfl
  case setk => rcases execSetk_cases k s with ⟨-, he⟩ | ⟨-, -, he⟩ | ⟨-, -, he⟩ <;> cases he.symm.trans h <;> rfl
  case symb =>
    rcases execSymb_cases first b s with ⟨-, he⟩ | ⟨-, -, -, he⟩ | ⟨-, -, he⟩ | ⟨-, -, -, he⟩ <;>
      cases he.symm.trans h <;> rfl

end

section
/-! SUPPORT. Runs that end well: a run without `RESET` does not leave FAULT (R252), so a count pass that ends COUNTED had
room for every chunk of its stream and counted them all (R142, R145). -/

namespace Sys2Proof.Machine

theorem runCommands_cons {i : Instr} {s u : State} (h : exec i s = .next u) (is : List Instr) :
    runCommands (i :: is) s = runCommands is u := by
  rw [runCommands, h]

/-- Every command of a run replies, so a run that goes on went through a next state. -/
theorem exists_exec_of_runCommands_cons {i : Instr} {is : List Instr} {s t : State}
    (h : runCommands (i :: is) s = .next t) : ∃ u, exec i s = .next u ∧ runCommands is u = .next t := by
  obtain ⟨u, st, d, hu, -⟩ := exec_answers i s
  exact ⟨_, hu, (runCommands_cons hu is).symm.trans h⟩

/-- A run of commands keeps the invariant. -/
theorem runCommands_keeps_inv {is : List Instr} {s t : State} (hs : StateInv s) (h : runCommands is s = .next t) :
    StateInv t := by
  induction is generalizing s with
  | nil =>
    cases h
    exact hs
  | cons i rest ih =>
    obtain ⟨u, hu, hrest⟩ := exists_exec_of_runCommands_cons h
    exact ih (exec_leadsToInv hs i u hu) hrest

/-! ### Phase FAULT -/

/-- The column FAULT of R40: beside `RESET` every command listed there stays there. -/
theorem eq_fault_of_mem_phasesAfter {i : Instr} {p : Phase} (hi : i ≠ .reset) (hlisted : .fault ∈ listedPhases i)
    (h : p ∈ phasesAfter i .fault) : p = .fault := by
  cases i with
  | nop | rd r => simpa [phasesAfter] using h
  | reset => exact absurd rfl hi
  | _ => simp [listedPhases] at hlisted

theorem exec_keeps_fault {i : Instr} {s t : State} (hs : s.phase = .fault) (hi : i ≠ .reset)
    (h : exec i s = .next t) : t.phase = .fault := by
  rcases exec_listedOrRefused i s with ⟨-, he⟩ | ⟨hp, u, hu, he⟩ <;> cases he.symm.trans h
  · exact hs
  · obtain ⟨r, -, -, hphase, -⟩ := hu.followsRow
    exact eq_fault_of_mem_phasesAfter hi (hs ▸ hp) (hs ▸ hphase)

theorem runCommands_keeps_fault {is : List Instr} {s t : State} (hs : s.phase = .fault) (hno : .reset ∉ is)
    (h : runCommands is s = .next t) : t.phase = .fault := by
  induction is generalizing s with
  | nil =>
    cases h
    exact hs
  | cons i rest ih =>
    obtain ⟨hi, hrest⟩ := List.ne_and_not_mem_of_not_mem_cons hno
    obtain ⟨u, hu, h⟩ := exists_exec_of_runCommands_cons h
    exact ih (exec_keeps_fault hs hi.symm hu) hrest h

/-! ### The count pass -/

theorem reset_notMem_rest (bytes : List Byte) : .reset ∉ pushs bytes ++ [.endStream] := by
  simp [pushs]

/-- From inside a count pass the rest of a stream and `END` fault on the first chunk the counters cannot hold, so a run
of them that does not end in FAULT had room for every chunk (R142, R244). -/
theorem room_of_rest_of_count {bytes : List Byte} {s t : State} (hp : s.phase = .count)
    (hn : s.ntot ≤ counterMax s.build) (h : runCommands (pushs bytes ++ [.endStream]) s = .next t)
    (ht : t.phase ≠ .fault) : s.ntot + (chunksFrom s.w.toNat s.buf bytes).length ≤ counterMax s.build := by
  have hpass : s.phase.inPass = true := (Phase.inPass_iff _).2 (.inl hp)
  induction bytes generalizing s with
  | nil =>
    by_cases hb : s.buf = []
    · simpa [hb] using hn
    · have hroom : s.ntot ≠ counterMax s.build := fun hfull => by
        have hend := (exec_endStream_completes hpass hb).trans (completeSymbol_total_full _ hp hfull)
        exact ht (runCommands_keeps_fault rfl (by simp) ((runCommands_cons hend []).symm.trans h))
      rw [chunksFrom_nil hb, List.length_singleton]
      omega
  | cons b rest ih =>
    rcases Nat.lt_or_ge (s.buf.length + 1) s.w.toNat with hlt | hle
    · rw [chunksFrom_cons_of_lt hlt]
      exact ih (s := (s.setBuf (s.buf ++ [b])).answer .ok 0) hp hn
        ((runCommands_cons (exec_push_fills hpass b hlt) _).symm.trans h) hpass
    · have hpush := exec_push_completes hpass b hle
      have hroom : s.ntot ≠ counterMax s.build := fun hfull => by
        have hfault := hpush.trans (completeSymbol_total_full id hp hfull)
        exact ht (runCommands_keeps_fault rfl (reset_notMem_rest rest) ((runCommands_cons hfault _).symm.trans h))
      have hrest : s.ntot + 1 + (chunksFrom s.w.toNat [] rest).length ≤ counterMax s.build :=
        ih (s := (((s.setBuf []).countUp (s.buf ++ [b]) _).answer .sym _)) hp (Nat.lt_of_le_of_ne hn hroom)
          ((runCommands_cons (hpush.trans (completeSymbol_counts id hp hroom)) _).symm.trans h) hpass
      rw [chunksFrom_cons_of_le hle, List.length_cons]
      omega

/-- A count pass that ends COUNTED counted every chunk of its stream. -/
theorem closesCount_of_counted {bytes : List Byte} {s t : State} (hp : s.phase.mayCount = true)
    (h : runCommands (countPass bytes) s = .next t) (ht : t.phase = .counted) :
    ClosesCount s.openCount (chunks s.w.toNat bytes) t := by
  have hopen : exec .cbegin s = .next (s.openCount.answer .ok 0) := if_pos hp
  have hroom := room_of_rest_of_count (s := s.openCount.answer .ok 0) rfl (Nat.zero_le _)
    ((runCommands_cons hopen _).symm.trans h) (by simp [ht])
  obtain ⟨ds, u, ⟨hrun, -⟩, -, hu⟩ := runs_countPass (bytes := bytes) hp (by simpa [chunks] using hroom)
  cases hrun.symm.trans h
  exact hu

end Sys2Proof.Machine
end

section
/-! SUPPORT. The phases of class H (R39), the query operand (R34), and the empty histogram of phase IDLE (R144). -/

namespace Sys2Proof.Machine

theorem ReadClass.readable_h_iff (p : Phase) : ReadClass.h.readable p = true ↔ p ≠ .count ∧ p ≠ .fault := by
  simp [ReadClass.readable]

/-- The query operand is written by `SYMB` and `RESET` alone (R34, R143). -/
theorem exec_keeps_sop {i : Instr} {s t : State} (hreset : i ≠ .reset) (hsymb : ∀ f c, i ≠ .symb f c)
    (h : exec i s = .next t) : t.sop = s.sop := by
  rcases exec_refusal_or_effect h with rfl | he
  · rfl
  cases he with
  | resets => exact absurd rfl hreset
  | startsOperand b => exact absurd rfl (hsymb true b)
  | extendsOperand b => exact absurd rfl (hsymb false b)
  | _ => rfl

/-- In phase IDLE every count reads 0 (R144). -/
theorem StateInv.cnt_get_of_idle {s : State} (h : StateInv s) (hp : s.phase = .idle) (y : Symbol) :
    s.cnt.get y = 0 := by
  obtain ⟨-, -, -, -, hempty⟩ := h.histogram
  rw [hempty hp, Counters.get_nil]

end Sys2Proof.Machine
end

section
/-! The obligations of this family. -/

open Sys2Proof Sys2Proof.Machine

/-- Settles O52: both passes counted all their chunks, from counters that read 0, and a permutation keeps the count of
each symbol and the length; canonical arrays that read alike are equal. -/
theorem countsIgnoreTheOrder : Obligations.CountsIgnoreTheOrder := by
  intro s s' t t' bytes bytes' hs hs' hp hp' _ hperm h h' ht ht'
  have hc := closesCount_of_counted hp h ht
  have hc' := closesCount_of_counted hp' h' ht'
  obtain ⟨hwf, -⟩ := (runCommands_keeps_inv hs h).histogram
  obtain ⟨hwf', -⟩ := (runCommands_keeps_inv hs' h').histogram
  refine ⟨Counters.eq_of_get_eq hwf hwf' fun y => ?_, ?_⟩
  · simp [hc.cnt_get, hc'.cnt_get, hperm.count_eq y]
  · simp [hc.ntot_eq, hc'.ntot_eq, hperm.length_eq]

/-- Settles O15: the two cases of `CBEGIN`; an empty array reads 0 everywhere. -/
theorem cbeginOpensACountPass : Obligations.CbeginOpensACountPass := by
  intro s
  refine ⟨rfl, ?refused, ?opens⟩
  case refused => rintro (hp | hp | hp) <;> exact if_neg (by simp [Phase.mayCount_iff, hp])
  case opens =>
    exact fun hp =>
      ⟨s.openCount.answer .ok 0, if_pos ((Phase.mayCount_iff _).2 hp), fun _ => rfl, fun _ => rfl, rfl⟩

/-- Settles O24: the cases of `SYMB`, and the frame of every other command. -/
theorem symbBuildsTheOperand : Obligations.SymbBuildsTheOperand := by
  intro first b s
  refine ⟨wordB_toNat 0x30 first b, fun hp => if_pos hp, ?starting, ?full, ?extending,
    fun i t hreset hsymb h => exec_keeps_sop hreset hsymb h⟩
  case starting => exact fun hp hf => (if_neg hp).trans (if_pos hf)
  case full =>
    rintro hp rfl hlen
    exact (if_neg hp).trans (if_pos hlen)
  case extending =>
    rintro hp rfl hlen
    have hlength : (s.sop ++ [b]).length = s.sop.length + 1 := by simp
    exact ((if_neg hp).trans (if_neg nofun)).trans ((if_neg hlen).trans (by rw [hlength]; rfl))

/-- Settles O25: the cases of `RDCNT`, and the empty histogram of phase IDLE. -/
theorem rdcntReadsTheCount : Obligations.RdcntReadsTheCount := by
  intro s
  refine ⟨rfl, ?refused, ?empty, ?reads, fun h hp => h.cnt_get_of_idle hp⟩
  case refused => rintro (hp | hp) <;> exact if_neg (by simp [ReadClass.readable_h_iff, hp])
  case empty => exact fun hc hf hsop => (if_pos ((ReadClass.readable_h_iff _).2 ⟨hc, hf⟩)).trans (if_pos hsop)
  case reads => exact fun hc hf hsop => (if_pos ((ReadClass.readable_h_iff _).2 ⟨hc, hf⟩)).trans (if_neg hsop)

end

section
/-! SUPPORT. The phases that take `SETB` and `SETK`, and the base outside them (R40, R160). -/

namespace Sys2Proof.Machine

theorem Phase.configurable_eq_false {p : Phase} (hi : p ≠ .idle) (hc : p ≠ .counted) : p.configurable = false := by
  simp [← Bool.not_eq_true, Phase.configurable_iff, hi, hc]

/-- In a phase that does not take `SETB` only `RESET` changes the base (R160). -/
theorem exec_keeps_base {i : Instr} {s t : State} (hs : s.phase.configurable = false) (hi : i ≠ .reset)
    (h : exec i s = .next t) : t.base = s.base := by
  rcases exec_listedOrRefused i s with ⟨-, he⟩ | ⟨hp, u, hu, he⟩ <;> cases he.symm.trans h
  · rfl
  cases hu with
  | resets => exact absurd rfl hi
  | setsBase b => simp [mem_listedPhases_setb, hs] at hp
  | _ => rfl

end Sys2Proof.Machine
end

section
/-! The obligations of this family. -/

open Sys2Proof Sys2Proof.Machine

/-- Settles O13: the cases of `SETB`, and the frame of the base. -/
theorem setbSetsTheBase : Obligations.SetbSetsTheBase := by
  intro b s
  refine ⟨wordI_toNat 0x11 b, ?phase, ?arg, ?writes,
    fun i t hi hc hr h => exec_keeps_base (Phase.configurable_eq_false hi hc) hr h⟩
  case phase => exact fun hi hc => if_neg (by simp [Phase.configurable_eq_false hi hc])
  case arg => exact fun hp hb => (if_pos ((Phase.configurable_iff _).2 hp)).trans (if_pos hb)
  case writes => exact fun hp hb => (if_pos ((Phase.configurable_iff _).2 hp)).trans (if_neg (by omega))

/-- Settles O14: the cases of `SETK`; a scale of 1 is neutral in `SCALE * NTOT`. -/
theorem setkSetsTheScale : Obligations.SetkSetsTheScale := by
  intro k s
  refine ⟨wordI_toNat 0x12 k, ?phase, ?arg, ?writes⟩
  case phase => exact fun hi hc => if_neg (by simp [Phase.configurable_eq_false hi hc])
  case arg => exact fun hp hk => (if_pos ((Phase.configurable_iff _).2 hp)).trans (if_pos hk)
  case writes =>
    refine fun hp hk => ⟨(if_pos ((Phase.configurable_iff _).2 hp)).trans (if_neg (by omega)), ?_⟩
    rintro rfl
    exact Nat.one_mul s.ntot

end

section
/-! SUPPORT. What the host's builder gives each symbol (R174, R178, R183): the indices of its keys are a range, and with
a table size that is a multiple of the histogram's sum the length of the range is the symbol's share. -/

namespace Sys2Proof.Machine

/-! ### A listing read as a table -/

/-- The indices a listing gives a symbol, in the order of the listing. -/
def indicesOf (es : List TableEntry) (y : Symbol) : List Nat := (es.filter (fun e => e.sym = y)).map TableEntry.idx

@[simp] theorem indicesOf_nil (y : Symbol) : indicesOf [] y = [] := rfl

theorem indicesOf_cons_same (y : Symbol) (k v : Nat) (es : List TableEntry) :
    indicesOf (⟨y, k, v⟩ :: es) y = k :: indicesOf es y := by
  simp [indicesOf]

theorem indicesOf_cons_other {y z : Symbol} (h : z ≠ y) (k v : Nat) (es : List TableEntry) :
    indicesOf (⟨z, k, v⟩ :: es) y = indicesOf es y := by
  simp [indicesOf, h]

theorem mem_indicesOf (es : List TableEntry) (y : Symbol) (k : Nat) :
    k ∈ indicesOf es y ↔ ∃ e ∈ es, e.sym = y ∧ e.idx = k := by
  simp [indicesOf, and_assoc]

/-- What the table of a listing reads is the slot of an entry at the key. -/
theorem exists_entry_of_read {es : List TableEntry} {y : Symbol} {k v : Nat}
    (h : (Table.ofEntries es).read y k = some v) : ∃ e ∈ es, e.sym = y ∧ e.idx = k ∧ e.slot = v := by
  rw [Table.read_ofEntries, Table.read_eq_find] at h
  obtain ⟨e, he, hslot⟩ := Option.map_eq_some_iff.1 h
  obtain ⟨hsym, hidx⟩ : e.sym = y ∧ e.idx = k := by simpa using List.find?_some he
  exact ⟨e, List.mem_of_find?_eq_some he, hsym, hidx, hslot⟩

/-- A symbol has an entry in the table of a listing at exactly the indices the listing gives it. -/
theorem isSome_read_iff (es : List TableEntry) (y : Symbol) (k : Nat) :
    ((Table.ofEntries es).read y k).isSome = true ↔ k ∈ indicesOf es y := by
  rw [mem_indicesOf, Table.read_ofEntries, Table.read_eq_find, Option.isSome_map, List.find?_isSome]
  simp

/-- Where a symbol has no index twice, each of its entries is what its key reads. -/
theorem read_of_mem {es : List TableEntry} {e : TableEntry} (h : e ∈ es) (hd : (indicesOf es e.sym).Nodup) :
    (Table.ofEntries es).read e.sym e.idx = some e.slot := by
  obtain ⟨v, hv⟩ := Option.isSome_iff_exists.1 ((isSome_read_iff es e.sym e.idx).2
    ((mem_indicesOf es e.sym e.idx).2 ⟨e, h, rfl, rfl⟩))
  obtain ⟨d, hmem, hsym, hidx, rfl⟩ := exists_entry_of_read hv
  rw [hv, List.inj_on_of_nodup_map hd (by simp [hmem, hsym]) (by simp [h]) hidx]

/-! ### The queue -/

/-- The symbols of a queue differ from each other. -/
abbrev DistinctSymbols (q : List QueueMember) : Prop := (q.map QueueMember.sym).Nodup

/-- The queue after an allocation (R178 step 3) has the symbols it had before. -/
theorem symbols_advance_perm {tie3 : Symbol → Symbol → Bool} {q : List QueueMember} {m : QueueMember}
    {others : List QueueMember} (h : popLeast tie3 q = some (m, others)) (n : Nat) :
    (q.map QueueMember.sym).Perm ((m.advance n :: others).map QueueMember.sym) :=
  (popLeast_perm tie3 h).map QueueMember.sym

/-- A member of a queue is the one popped, or one left with another symbol. -/
theorem eq_or_mem_others {tie3 : Symbol → Symbol → Bool} {q : List QueueMember} (hq : DistinctSymbols q)
    {m : QueueMember} {others : List QueueMember} (h : popLeast tie3 q = some (m, others)) {a : QueueMember}
    (ha : a ∈ q) : a = m ∨ (a ∈ others ∧ m.sym ≠ a.sym) := by
  refine (List.mem_cons.1 ((popLeast_perm tie3 h).mem_iff.1 ha)).imp_right fun hmem => ⟨hmem, fun he => ?_⟩
  have hd : DistinctSymbols (m :: others) := ((popLeast_perm tie3 h).map _).nodup_iff.1 hq
  exact (List.nodup_cons.1 hd).1 (he ▸ List.mem_map_of_mem hmem)

/-! ### The keys an allocation gives -/

/-- A symbol that is not in the queue gets no key. -/
theorem allocate_indices_eq_nil {tie3 : Symbol → Symbol → Bool} {n count x : Nat} {q : List QueueMember}
    {es : List TableEntry} (h : allocate tie3 n count x q = .table es) {y : Symbol}
    (hy : y ∉ q.map QueueMember.sym) : indicesOf es y = [] := by
  induction count generalizing x q es with
  | zero => cases h; rfl
  | succ count ih =>
    obtain ⟨m, others, es, hp, rfl, he⟩ := allocate_succ tie3 n h
    rw [(symbols_advance_perm hp n).mem_iff] at hy
    have hm : m.sym ≠ y := fun hm => hy (by simp [QueueMember.advance, hm])
    rw [indicesOf_cons_other hm, ih he hy]

/-- The indices of a member's keys are a range from its occurrence-count on (R178: `xs` only rises, by 1). -/
theorem allocate_indices_eq_range {tie3 : Symbol → Symbol → Bool} {n count x : Nat} {q : List QueueMember}
    {es : List TableEntry} (h : allocate tie3 n count x q = .table es) (hq : DistinctSymbols q) {a : QueueMember}
    (ha : a ∈ q) : ∃ c, indicesOf es a.sym = List.range' a.xs c := by
  induction count generalizing x q es a with
  | zero => cases h; exact ⟨0, rfl⟩
  | succ count ih =>
    obtain ⟨m, others, es, hp, rfl, he⟩ := allocate_succ tie3 n h
    have hq' := (symbols_advance_perm hp n).nodup_iff.1 hq
    rcases eq_or_mem_others hq hp ha with rfl | ⟨hmem, hne⟩
    · obtain ⟨c, hc⟩ := ih he hq' List.mem_cons_self
      refine ⟨c + 1, ?_⟩
      rw [indicesOf_cons_same, List.range'_succ]
      exact congrArg _ hc
    · rw [indicesOf_cons_other hne]
      exact ih he hq' (List.mem_cons_of_mem _ hmem)

/-! ### The share of a symbol (R183) -/

/-- The keys a member is still to get, of its share of `a` keys for each occurrence. -/
def QueueMember.due (a : Nat) (m : QueueMember) : Nat := m.freq + a * m.freq - m.xs

/-- A member on its schedule: after `j` allocations its priority is that of R182, and `j` is within its share. -/
structure OnSchedule (n a : Nat) (m : QueueMember) : Prop where
  freq_pos : 0 < m.freq
  total_pos : 0 < n
  within : ∃ j ≤ a * m.freq, m.xs = m.freq + j ∧ m.key = (2 * j + 1) * n

section
variable {n a : Nat} {m : QueueMember}

/-- A member whose value is at most that of one with keys due has keys due itself: the `j`-th value of a symbol is below
`a * n` exactly when `j` is below its share (R183). -/
theorem OnSchedule.due_pos_of_valueLe {c : QueueMember} (hm : OnSchedule n a m) (hc : OnSchedule n a c)
    (hle : m.valueLe c) (hdue : 0 < c.due a) : 0 < m.due a := by
  obtain ⟨i, hi, hxs, hkey⟩ := hm.within
  obtain ⟨j, hj, hxs', hkey'⟩ := hc.within
  have hj' : 2 * j + 1 < 2 * (a * c.freq) := by simp only [QueueMember.due] at hdue; omega
  have hlt : (2 * i + 1) * (n * (2 * c.freq)) < 2 * (a * m.freq) * (n * (2 * c.freq)) :=
    calc (2 * i + 1) * (n * (2 * c.freq)) = m.key * (2 * c.freq) := by rw [hkey, Nat.mul_assoc]
      _ ≤ c.key * (2 * m.freq) := hle
      _ = (2 * j + 1) * (n * (2 * m.freq)) := by rw [hkey', Nat.mul_assoc]
      _ < 2 * (a * c.freq) * (n * (2 * m.freq)) :=
        Nat.mul_lt_mul_of_pos_right hj' (Nat.mul_pos hm.total_pos (Nat.mul_pos (by decide) hm.freq_pos))
      _ = 2 * (a * m.freq) * (n * (2 * c.freq)) := by ring
  have hi' := Nat.lt_of_mul_lt_mul_right hlt
  simp only [QueueMember.due]
  omega

/-- An allocation to a member with keys due takes one of them. -/
theorem QueueMember.due_advance (hdue : 0 < m.due a) : (m.advance n).due a + 1 = m.due a := by
  simp only [QueueMember.due, QueueMember.advance] at *
  omega

theorem OnSchedule.advance (hm : OnSchedule n a m) (hdue : 0 < m.due a) : OnSchedule n a (m.advance n) := by
  obtain ⟨j, hj, hxs, hkey⟩ := hm.within
  have hj' : j + 1 ≤ a * m.freq := by simp only [QueueMember.due] at hdue; omega
  refine ⟨hm.freq_pos, hm.total_pos, j + 1, hj', ?_, ?_⟩
  · simp [QueueMember.advance, hxs, Nat.add_assoc]
  · simp only [QueueMember.advance, hkey]
    ring

end

/-- With keys due in the queue, the popped member has keys due (R177, R183). -/
theorem due_pos_of_popLeast {tie3 : Symbol → Symbol → Bool} {n a : Nat} {q others : List QueueMember}
    {m : QueueMember} (hs : ∀ c ∈ q, OnSchedule n a c) (hp : popLeast tie3 q = some (m, others))
    (hdue : 0 < (q.map (QueueMember.due a)).sum) : 0 < m.due a := by
  have hperm := popLeast_perm tie3 hp
  obtain ⟨_, hmap, hpos⟩ := List.exists_mem_ne_zero_of_sum_ne_zero hdue.ne'
  obtain ⟨c, hc, rfl⟩ := List.mem_map.1 hmap
  rcases List.mem_cons.1 (hperm.mem_iff.1 hc) with rfl | hc'
  · exact Nat.pos_of_ne_zero hpos
  · have hle := popLeast_least tie3 (fun d hd => (hs d hd).freq_pos) hp c hc'
    exact (hs m (hperm.mem_iff.2 List.mem_cons_self)).due_pos_of_valueLe (hs c hc) hle (Nat.pos_of_ne_zero hpos)

/-- An allocation of all the keys due to a queue gives each member what is due to it. -/
theorem allocate_gives_due {tie3 : Symbol → Symbol → Bool} {n a count x : Nat} {q : List QueueMember}
    {es : List TableEntry} (h : allocate tie3 n count x q = .table es) (hq : DistinctSymbols q)
    (hs : ∀ c ∈ q, OnSchedule n a c) (hcount : (q.map (QueueMember.due a)).sum = count) {c : QueueMember}
    (hc : c ∈ q) : (indicesOf es c.sym).length = c.due a := by
  induction count generalizing x q es c with
  | zero =>
    cases h
    exact (List.sum_eq_zero_iff.1 hcount _ (List.mem_map_of_mem hc)).symm
  | succ count ih =>
    obtain ⟨m, others, es, hp, rfl, he⟩ := allocate_succ tie3 n h
    have hperm := popLeast_perm tie3 hp
    have hdue := due_pos_of_popLeast hs hp (hcount ▸ Nat.succ_pos count)
    have hadv := QueueMember.due_advance (n := n) hdue
    have hq' := (symbols_advance_perm hp n).nodup_iff.1 hq
    have hs' : ∀ d ∈ m.advance n :: others, OnSchedule n a d :=
      List.forall_mem_cons.2 ⟨(hs m (hperm.mem_iff.2 List.mem_cons_self)).advance hdue,
        fun d hd => hs d (hperm.mem_iff.2 (List.mem_cons_of_mem _ hd))⟩
    have hcount' : ((m.advance n :: others).map (QueueMember.due a)).sum = count := by
      rw [(hperm.map _).sum_eq, List.map_cons, List.sum_cons] at hcount
      rw [List.map_cons, List.sum_cons]
      omega
    rcases eq_or_mem_others hq hp hc with rfl | ⟨hmem, hne⟩
    · rw [indicesOf_cons_same, List.length_cons, ← hadv]
      exact congrArg (· + 1) (ih he hq' hs' hcount' List.mem_cons_self)
    · rw [indicesOf_cons_other hne]
      exact ih he hq' hs' hcount' (List.mem_cons_of_mem _ hmem)

/-! ### The builder on a canonical histogram -/

theorem seed_mem {f : Counters} {y : Symbol} (hy : f.get y ≠ 0) (n : Nat) :
    QueueMember.seed n (y, f.get y) ∈ f.map (QueueMember.seed n) :=
  List.mem_map_of_mem (Counters.mem_of_get hy)

/-- With the sum of the frequencies as `N`, the seeded members are on schedule (R182 with `j = 0`). -/
theorem onSchedule_seed {f : Counters} (hf : f.wf = true) (a : Nat) :
    ∀ m ∈ f.map (QueueMember.seed f.total), OnSchedule f.total a m := by
  rintro _ hm
  obtain ⟨c, hc, rfl⟩ := List.mem_map.1 hm
  have hpos : 0 < c.2 := Nat.pos_of_ne_zero (Counters.ne_zero_of_mem hf hc)
  have hle : c.2 ≤ f.total := Counters.get_of_mem hf hc ▸ Counters.get_le_total f c.1
  exact ⟨hpos, hpos.trans_le hle, 0, Nat.zero_le _, rfl, (Nat.one_mul _).symm⟩

/-- What is due to the seeded queue: `a` slots for each occurrence. -/
theorem sum_due_seed (f : Counters) (n a : Nat) :
    ((f.map (QueueMember.seed n)).map (QueueMember.due a)).sum = a * f.total := by
  induction f with
  | nil => rfl
  | cons c rest ih =>
    rw [List.map_cons, List.map_cons, List.sum_cons, ih, Counters.total_cons, Nat.mul_add]
    simp [QueueMember.due, QueueMember.seed]

/-- The number of slots of R179 with `L = K * N` (R183). -/
theorem slots_eq_share (b scale n : Nat) : b * (scale * n) - scale * n = (b - 1) * scale * n := by
  rw [Nat.mul_assoc, Nat.sub_one_mul]

section
variable {tie3 : Symbol → Symbol → Bool} {f : Counters} (hf : f.wf = true)
include hf

/-- The seeded queue has each symbol once (R176). -/
theorem distinctSymbols_seed (n : Nat) : DistinctSymbols (f.map (QueueMember.seed n)) := by
  rw [DistinctSymbols, List.map_map]
  refine List.Pairwise.map _ (fun c d hcd he => ?_) (Counters.pairwise_of_wf hf)
  exact absurd hcd (by simp [Order.Preimage, show c.1 = d.1 from he])

/-- A canonical histogram has no zero frequency, so the builder allocates (R179, R181). -/
theorem buildTable_eq_allocate (n b l : Nat) :
    buildTable tie3 f n b l = allocate tie3 n (b * l - l) l (f.map (QueueMember.seed n)) := by
  refine if_neg ?_
  simpa using fun y hy => Counters.ne_zero_of_mem hf hy rfl

/-- The builder fails on a canonical histogram only if that is empty and there are slots to fill (R181). -/
theorem exists_buildTable (n b : Nat) {l : Nat} (h : f = [] → l = 0) : ∃ es, buildTable tie3 f n b l = .table es := by
  rw [buildTable_eq_allocate hf]
  apply allocate_ne_failed
  rcases eq_or_ne f [] with he | hne
  · exact .inr (by simp [h he])
  · exact .inl (by simpa using hne)

variable {n b l : Nat} {es : List TableEntry} (h : buildTable tie3 f n b l = .table es)
include h

/-- The slots of a built table are those of `[L, B*L)`, in order (R178). -/
theorem buildTable_slots : es.map TableEntry.slot = List.range' l (b * l - l) := by
  rw [buildTable_eq_allocate hf] at h
  exact allocate_slots tie3 n h

/-- A symbol outside the histogram has no key (R174). -/
theorem buildTable_indices_eq_nil {y : Symbol} (hy : f.get y = 0) : indicesOf es y = [] := by
  rw [buildTable_eq_allocate hf] at h
  refine allocate_indices_eq_nil h fun hmem => ?_
  obtain ⟨_, hm, rfl⟩ := List.mem_map.1 hmem
  obtain ⟨c, hc, rfl⟩ := List.mem_map.1 hm
  exact Counters.ne_zero_of_mem hf hc ((Counters.get_of_mem hf hc).symm.trans hy)

/-- The indices of a symbol are a range from its frequency on (R174, R178). -/
theorem buildTable_indices_eq_range (y : Symbol) : ∃ c, indicesOf es y = List.range' (f.get y) c := by
  by_cases hy : f.get y = 0
  · exact ⟨0, buildTable_indices_eq_nil hf h hy⟩
  · rw [buildTable_eq_allocate hf] at h
    exact allocate_indices_eq_range h (distinctSymbols_seed hf n) (seed_mem hy n)

end

/-- With `L = K * N` a symbol gets its share of the slots (R183). -/
theorem buildTable_indices_length {tie3 : Symbol → Symbol → Bool} {f : Counters} (hf : f.wf = true) {b scale : Nat}
    {es : List TableEntry} (h : buildTable tie3 f f.total b (scale * f.total) = .table es) (y : Symbol) :
    (indicesOf es y).length = (b - 1) * scale * f.get y := by
  by_cases hy : f.get y = 0
  · rw [buildTable_indices_eq_nil hf h hy, hy, Nat.mul_zero, List.length_nil]
  · rw [buildTable_eq_allocate hf, slots_eq_share] at h
    have hdue := allocate_gives_due h (distinctSymbols_seed hf _) (onSchedule_seed hf _) (sum_due_seed f _ _)
      (seed_mem hy _)
    exact hdue.trans (Nat.add_sub_cancel_left ..)

/-- The host's builder gives a table for the histogram of every state of the invariant (R181). -/
theorem exists_hostBuild (tie3 : Symbol → Symbol → Bool) {s : State} (hs : StateInv s) :
    ∃ es, hostBuild tie3 s = .table es := by
  obtain ⟨hwf, -, htotal, -⟩ := hs.histogram
  refine exists_buildTable hwf _ _ fun hnil => ?_
  rw [tableSize, ← htotal, hnil, Counters.total_nil, Nat.mul_zero]

end Sys2Proof.Machine
end

section
/-! The obligations of this family. -/

open Sys2Proof Sys2Proof.Machine

/-- Settles O54: the slots are `[L, B*L)` in order, so an entry is known by its slot, and by its key. -/
theorem builderGivesASpreadTable : Obligations.BuilderGivesASpreadTable := by
  intro tie3 f n b l es hf _ h
  have hslots := buildTable_slots hf h
  refine ⟨⟨?range, ?injective, ?surjective⟩, ?length⟩
  case range =>
    intro y k v hv
    obtain ⟨e, he, -, -, rfl⟩ := exists_entry_of_read hv
    have hmem := List.mem_range'_1.1 (hslots ▸ List.mem_map_of_mem he)
    omega
  case injective =>
    intro y k y' k' v hv hv'
    obtain ⟨e, he, rfl, rfl, hslot⟩ := exists_entry_of_read hv
    obtain ⟨e', he', rfl, rfl, hslot'⟩ := exists_entry_of_read hv'
    have hd : (es.map TableEntry.slot).Nodup := hslots ▸ List.nodup_range'
    rw [List.inj_on_of_nodup_map hd he he' (hslot.trans hslot'.symm)]
    exact ⟨rfl, rfl⟩
  case surjective =>
    intro v hl hu
    have hmem : v ∈ es.map TableEntry.slot := hslots ▸ List.mem_range'_1.2 (by omega)
    obtain ⟨e, he, rfl⟩ := List.mem_map.1 hmem
    obtain ⟨c, hc⟩ := buildTable_indices_eq_range hf h e.sym
    exact ⟨e.sym, e.idx, read_of_mem he (hc ▸ List.nodup_range')⟩
  case length => rw [← List.length_map, hslots, List.length_range', Nat.sub_one_mul]

/-- Settles O55: the indices of a symbol are a range from its frequency on. -/
theorem builderKeysStartAtTheFrequency : Obligations.BuilderKeysStartAtTheFrequency := by
  intro tie3 f n b l es hf h y
  obtain ⟨m, hm⟩ := buildTable_indices_eq_range hf h y
  refine ⟨m, fun hy => ?_, fun k => ?_⟩
  · exact List.range'_eq_nil_iff.1 (hm.symm.trans (buildTable_indices_eq_nil hf h hy))
  · rw [isSome_read_iff, hm, List.mem_range'_1]

/-- Settles O56: the range of O55 has the length of the symbol's share. -/
theorem builderGivesEachSymbolItsShare : Obligations.BuilderGivesEachSymbolItsShare := by
  intro tie3 f b scale hf _ _
  obtain ⟨es, h⟩ := exists_buildTable (tie3 := tie3) hf f.total b (l := scale * f.total) (by rintro rfl; rfl)
  refine ⟨es, h, fun y => ?_⟩
  have hlength := buildTable_indices_length hf h y
  obtain ⟨m, hm⟩ := buildTable_indices_eq_range hf h y
  obtain rfl : m = (b - 1) * scale * f.get y := by rw [← hlength, hm, List.length_range']
  refine ⟨?_, fun k => ?_⟩
  · rw [← hlength, indicesOf, List.length_map]
  · rw [isSome_read_iff, hm, List.mem_range'_1]

/-- Settles O57: the histogram is canonical, and without a symbol there is no slot. -/
theorem builderNeverFailsOnAHistogram : Obligations.BuilderNeverFailsOnAHistogram :=
  fun tie3 _ hs => exists_hostBuild tie3 hs

/-- Settles O59: index 1 is below the frequency, where the keys of the symbol begin, and the counter is not full. -/
theorem repeatedSymbolFaultsOnABuiltTable : Obligations.RepeatedSymbolFaultsOnABuiltTable := by
  intro tie3 s b es hs hp h htbl hw hcnt hocc
  obtain ⟨hwf, -⟩ := hs.histogram
  have habsent : s.tbl.read (s.buf ++ [b]) 1 = none := by
    obtain ⟨m, hm⟩ := buildTable_indices_eq_range hwf h (s.buf ++ [b])
    rw [htbl, ← Option.not_isSome_iff_eq_none, isSome_read_iff, hm, List.mem_range'_1]
    omega
  have hmax : s.cnt.get (s.buf ++ [b]) ≤ counterMax s.build := hs.cnt_get_le _
  rw [exec_push_completes ((Phase.inPass_iff _).2 (.inr hp)) b hw.ge,
    completeSymbol_absent id hp (by omega) (by rwa [hocc]), hocc]

/-- Settles O58, by running the builder: no two frequencies are equal, so `tie3` is never asked. -/
theorem workedTableOfTheSpec : Obligations.WorkedTableOfTheSpec := fun _ => rfl

end

section
/-! SUPPORT. The current X in no command but `RD X` (R32, R204): two states that differ in X alone stay such states, and
become one state with the next symbol encoded. -/

namespace Sys2Proof.Machine

/-- The state `s` with another current X. -/
def State.setX (s : State) (v : Nat) : State := { s with x := v }

/-- The outcome `r` with another current X. -/
def withX (v : Nat) : Result → Result
  | .next t => .next (t.setX v)
  | .fault f => .fault f
  | .refused f => .refused f

/-- The outcomes are the same but for X. -/
def AgreeButX (r r' : Result) : Prop := ∃ v, r' = withX v r

namespace AgreeButX

theorem refl (r : Result) : AgreeButX r r := by
  cases r with
  | next t => exact ⟨t.x, rfl⟩
  | fault f => exact ⟨0, rfl⟩
  | refused f => exact ⟨0, rfl⟩

/-- A command that checks no X takes the same branch in both states. -/
theorem ite {c : Prop} [Decidable c] {a a' b b' : Result} (ha : AgreeButX a a') (hb : AgreeButX b b') :
    AgreeButX (if c then a else b) (if c then a' else b') := by
  by_cases hc : c
  · simpa only [if_pos hc] using ha
  · simpa only [if_neg hc] using hb

end AgreeButX

/-! ### `RD` -/

theorem Register.ofNumber_eq_x {r : Byte} (h : Register.ofNumber r = some .x) : r = 6 := by
  revert r
  decide

theorem registerValue_setX {q : Register} (hq : q ≠ .x) (s : State) (v : Nat) :
    registerValue q (s.setX v) = registerValue q s := by
  cases q with
  | x => exact absurd rfl hq
  | _ => rfl

theorem execRd_agreeButX {r : Byte} (hr : r ≠ 6) (s : State) (v : Nat) :
    AgreeButX (execRd r s) (execRd r (s.setX v)) := by
  unfold execRd
  cases hq : Register.ofNumber r with
  | none => exact ⟨v, rfl⟩
  | some q =>
    have hx : q ≠ .x := by
      rintro rfl
      exact hr (Register.ofNumber_eq_x hq)
    simp only [registerValue_setX hx]
    exact .ite ⟨v, rfl⟩ ⟨v, rfl⟩

/-! ### The commands that complete a symbol -/

/-- ENCSYM does not look at X, and where it moves it overwrites it (R203). -/
theorem encSym_setX (y : Symbol) (s : State) (v : Nat) : encSym y (s.setX v) = encSym y s := rfl

theorem completeSymbol_agreeButX (y : Symbol) (s : State) {v : Nat} {last : State → State}
    (hlast : ∀ u : State, last (u.setX v) = (last u).setX v) :
    AgreeButX (completeSymbol y s last) (completeSymbol y (s.setX v) last) := by
  by_cases hp : s.phase = .count
  · by_cases hn : s.ntot = counterMax s.build
    · rw [completeSymbol_total_full last hp hn, completeSymbol_total_full (s := s.setX v) last hp hn]
      exact ⟨v, rfl⟩
    · rw [completeSymbol_counts last hp hn, completeSymbol_counts (s := s.setX v) last hp hn]
      exact ⟨v, congrArg (reply .sym _) (hlast ((s.setBuf []).countUp y (s.cnt.get y + 1)))⟩
  · have hemit : emit y ((s.setX v).setBuf []) = emit y (s.setBuf []) := calc
      _ = encSym y ((s.setBuf []).setX v) := if_neg hp
      _ = encSym y (s.setBuf []) := encSym_setX y _ v
      _ = emit y (s.setBuf []) := (if_neg hp).symm
    rw [completeSymbol, completeSymbol, hemit]
    cases emit y (s.setBuf []) with
    | done t d => exact .refl _
    | raised f y k => exact ⟨v, rfl⟩

/-! ### Every command -/

/-- No command but `RD X` tells two states apart that differ in X alone (R32, R204): `EBEGIN`, `CBEGIN`, `RESET` and an
encoded symbol overwrite X, all others pass it on. -/
theorem exec_agreeButX {i : Instr} (hi : i ≠ .rd 6) (s : State) (v : Nat) :
    AgreeButX (exec i s) (exec i (s.setX v)) := by
  cases i with
  | nop => exact ⟨v, rfl⟩
  | reset => exact .refl _
  | rd r => exact execRd_agreeButX (fun hr => hi (hr ▸ rfl)) s v
  | setw w => exact .ite (.ite ⟨v, rfl⟩ ⟨v, rfl⟩) ⟨v, rfl⟩
  | setb b => exact .ite (.ite ⟨v, rfl⟩ ⟨v, rfl⟩) ⟨v, rfl⟩
  | setk k => exact .ite (.ite ⟨v, rfl⟩ ⟨v, rfl⟩) ⟨v, rfl⟩
  | cbegin => exact .ite (.refl _) ⟨v, rfl⟩
  | ebegin => exact .ite (.ite ⟨v, rfl⟩ (.refl _)) ⟨v, rfl⟩
  | push b => exact .ite (.ite ⟨v, rfl⟩ (completeSymbol_agreeButX _ s fun _ => rfl)) ⟨v, rfl⟩
  | endStream => exact .ite (.ite ⟨v, rfl⟩ (completeSymbol_agreeButX _ s fun _ => rfl)) ⟨v, rfl⟩
  | srcerr => exact .ite ⟨v, rfl⟩ ⟨v, rfl⟩
  | symb first b => exact .ite ⟨v, rfl⟩ (.ite ⟨v, rfl⟩ (.ite ⟨v, rfl⟩ ⟨v, rfl⟩))
  | rdcnt => exact .ite (.ite ⟨v, rfl⟩ ⟨v, rfl⟩) ⟨v, rfl⟩
  | rdocc => exact .ite (.ite ⟨v, rfl⟩ ⟨v, rfl⟩) ⟨v, rfl⟩

/-- The SYM response of an encode pass carries the new X (R203). -/
theorem x_eq_of_sym {i : Instr} {s t : State} {d : Nat} (hp : s.phase = .encode) (h : exec i s = .next t)
    (hd : t.resp = some ⟨.sym, d⟩) : t.x = d := by
  rcases exec_refusal_or_effect h with rfl | he
  · simp at hd
  cases he with
  | counts hc => simp [hp] at hc
  | moves _ _ v => simpa using hd
  | _ => simp at hd

end Sys2Proof.Machine
end

section
/-! SUPPORT. The encode pass over a stream (R128, R200, R206), and the phases of class E (R39). -/

namespace Sys2Proof.Machine

/-! ### The walk through the table -/

theorem slotWalk_cons {t : Table} {seen ys : List Symbol} {y : Symbol} {slots : List Nat}
    (h : slotWalk t seen (y :: ys) = some slots) :
    ∃ v vs, t.read y (seen.count y + 1) = some v ∧ slotWalk t (y :: seen) ys = some vs ∧ slots = v :: vs := by
  rw [slotWalk] at h
  cases hv : t.read y (seen.count y + 1) with
  | none => simp [hv] at h
  | some v =>
    obtain ⟨vs, hvs, rfl⟩ := Option.map_eq_some_iff.1 (hv ▸ h)
    exact ⟨v, vs, rfl, hvs, rfl⟩

/-- `s` stands in an encode pass that has encoded the symbols `seen` and finds for the next ones, `ys`, the slots
`slots`: each in the working interval, and no occurrence counter full on the way (R203). -/
structure WalksAhead (s : State) (seen ys : List Symbol) (slots : List Nat) : Prop where
  phase_eq : s.phase = .encode
  occ_wf : s.occ.wf = true
  occ_get : ∀ y, s.occ.get y = seen.count y
  walk : slotWalk s.tbl seen ys = some slots
  inside : ∀ v ∈ slots, s.tsize ≤ v ∧ v < s.base.toNat * s.tsize
  room : ∀ y, s.occ.get y + ys.count y ≤ counterMax s.build

/-- The state after ENCSYM has moved to the slot `v` of the symbol `y` in a `PUSH` or `END` (R122, R203). -/
abbrev encoded (s : State) (y : Symbol) (v : Nat) : State := (s.setBuf []).moveTo v y (s.occ.get y + 1)

theorem encoded_occ_get {s : State} (hwf : s.occ.wf = true) (y : Symbol) (v : Nat) (z : Symbol) :
    (encoded s y v).occ.get z = s.occ.get z + if y == z then 1 else 0 := by
  rw [← List.count_singleton]
  exact Counters.get_set_succ hwf y z

/-- The next symbol moves the encoder to its slot, and the walk goes on from there. -/
theorem WalksAhead.next {s : State} {seen ys : List Symbol} {y : Symbol} {slots : List Nat}
    (h : WalksAhead s seen (y :: ys) slots) :
    ∃ v vs, slots = v :: vs ∧
      (∀ last, completeSymbol y s last = .next ((last (encoded s y v)).answer .sym v)) ∧
      WalksAhead ((encoded s y v).answer .sym v) (y :: seen) ys vs := by
  obtain ⟨hp, hwf, hget, hwalk, hinside, hroom⟩ := h
  obtain ⟨v, vs, hread, hvs, rfl⟩ := slotWalk_cons hwalk
  obtain ⟨hl, hu⟩ := hinside v (by simp)
  have hk : s.occ.get y ≠ counterMax s.build := by
    have := hroom y
    rw [List.count_cons_self] at this
    omega
  refine ⟨v, vs, rfl, fun last => completeSymbol_moves last hp v hk (by rwa [hget]) hl hu, ?_⟩
  exact
    { phase_eq := hp
      occ_wf := Counters.wf_set hwf _ _
      occ_get := fun z => by
        rw [State.answer_occ, encoded_occ_get hwf, hget, List.count_cons]
      walk := hvs
      inside := fun w hw => hinside w (List.mem_cons_of_mem _ hw)
      room := fun z => by
        rw [State.answer_occ, encoded_occ_get hwf, Nat.add_right_comm, Nat.add_assoc, ← List.count_cons]
        exact hroom z }

/-! ### The pass -/

/-- `t` closes an encode pass that had come to `s` and still encoded the symbols `ys`, at the slots `slots`. -/
structure ClosesEncode (s : State) (ys : List Symbol) (slots : List Nat) (t : State) : Prop where
  phase_eq : t.phase = .encoded
  x_eq : t.x = slots.getLast?.getD s.x
  tsize_eq : t.tsize = s.tsize
  occ_get : ∀ y, t.occ.get y = s.occ.get y + ys.count y
  cnt_eq : t.cnt = s.cnt
  ntot_eq : t.ntot = s.ntot

theorem ClosesEncode.cons {s t : State} {y : Symbol} {ys : List Symbol} {v : Nat} {vs : List Nat}
    {st : Status} {d : Nat} (hwf : s.occ.wf = true) (h : ClosesEncode ((encoded s y v).answer st d) ys vs t) :
    ClosesEncode s (y :: ys) (v :: vs) t :=
  { h with
    x_eq := by simpa [List.getLast?_cons] using h.x_eq
    occ_get := fun z => by
      rw [h.occ_get z, State.answer_occ, encoded_occ_get hwf, List.count_cons]
      omega }

/-- From inside an encode pass the rest of a stream and `END` reply the slots of the chunks still to come, in order: a
byte fills the buffer or completes a chunk, and `END` flushes what is left. -/
theorem runs_rest_of_encode {bytes : List Byte} {s : State} {seen : List Symbol} {slots : List Nat}
    (h : WalksAhead s seen (chunksFrom s.w.toNat s.buf bytes) slots) :
    ∃ t, Runs (pushs bytes ++ [.endStream]) s slots t ∧
      ClosesEncode s (chunksFrom s.w.toNat s.buf bytes) slots t := by
  induction bytes generalizing s seen slots with
  | nil =>
    have hpass : s.phase.inPass = true := (Phase.inPass_iff _).2 (.inr h.phase_eq)
    by_cases hb : s.buf = []
    · rw [hb, chunksFrom_nil_nil] at h ⊢
      obtain rfl : [] = slots := Option.some.inj h.walk
      refine ⟨_, .cons_other (exec_endStream_closes hpass hb) (by decide) (.nil _), ?_⟩
      constructor <;> simp [h.phase_eq, Phase.afterEnd]
    · rw [chunksFrom_nil hb] at h ⊢
      obtain ⟨v, vs, rfl, hmoves, hrest⟩ := h.next
      obtain rfl : [] = vs := Option.some.inj hrest.walk
      refine ⟨_, .cons_sym ((exec_endStream_completes hpass hb).trans (hmoves _)) (.nil _), ?_⟩
      refine .cons (st := .sym) (d := v) h.occ_wf ?_
      constructor <;> simp [h.phase_eq, Phase.afterEnd]
  | cons b rest ih =>
    have hpass : s.phase.inPass = true := (Phase.inPass_iff _).2 (.inr h.phase_eq)
    rcases Nat.lt_or_ge (s.buf.length + 1) s.w.toNat with hlt | hle
    · rw [chunksFrom_cons_of_lt hlt] at h ⊢
      obtain ⟨t, hrun, ht⟩ := ih (s := (s.setBuf (s.buf ++ [b])).answer .ok 0) { h with }
      exact ⟨t, .cons_other (exec_push_fills hpass b hlt) (by decide) hrun, { ht with }⟩
    · rw [chunksFrom_cons_of_le hle] at h ⊢
      obtain ⟨v, vs, rfl, hmoves, hrest⟩ := h.next
      obtain ⟨t, hrun, ht⟩ := ih hrest
      exact ⟨t, .cons_sym ((exec_push_completes hpass b hle).trans (hmoves id)) hrun, ht.cons h.occ_wf⟩

theorem exec_ebegin_opens {s : State} (hp : s.phase.mayEncode = true)
    (hl : s.base.toNat * tableSize s ≤ 2 ^ s.build.sw) :
    exec .ebegin s = .next ((s.openEncode (tableSize s)).answer .ok (tableSize s)) :=
  (if_pos hp).trans (if_neg (by omega))

/-- An encode pass opens with an empty buffer and no occurrence, and walks the table over its stream (R200, R201). -/
theorem runs_encodePass {bytes : List Byte} {s : State} {slots : List Nat} (hp : s.phase.mayEncode = true)
    (hl : s.base.toNat * tableSize s ≤ 2 ^ s.build.sw)
    (h : WalksAhead (s.openEncode (tableSize s)) [] (chunks s.w.toNat bytes) slots) :
    ∃ t, Runs (encodePass bytes) s slots t ∧
      ClosesEncode (s.openEncode (tableSize s)) (chunks s.w.toNat bytes) slots t := by
  obtain ⟨t, hrun, ht⟩ := runs_rest_of_encode (bytes := bytes)
    (s := (s.openEncode (tableSize s)).answer .ok (tableSize s)) { h with }
  exact ⟨t, hrun.cons_other (exec_ebegin_opens hp hl) (by decide), { ht with }⟩

/-! ### Class E -/

theorem ReadClass.readable_e_iff (p : Phase) : ReadClass.e.readable p = true ↔ p = .encode ∨ p = .encoded := by
  simp [ReadClass.readable]

end Sys2Proof.Machine
end

section
/-! The obligations of this family. -/

open Sys2Proof Sys2Proof.Machine

/-- Settles O37: the next states agree but for X, and the SYM response of an encode pass carries X, so there the next
states have one X too. -/
theorem nextStateIgnoresX : Obligations.NextStateIgnoresX := by
  intro i s t t' v hi h h'
  obtain ⟨v', hagree⟩ := exec_agreeButX hi s v
  obtain rfl : t' = t.setX v' := by
    rw [h] at hagree
    injection h'.symm.trans hagree
  refine ⟨rfl, ?_⟩
  rintro hp ⟨d, hd⟩
  have hx : t.x = d := x_eq_of_sym hp h hd
  obtain rfl : v' = t.x := (x_eq_of_sym (s := s.setX v) hp h' hd).trans hx.symm
  rfl

/-- Settles O53: the pass starts from counters that read 0, at the state `SCALE * NTOT`. -/
theorem encodePassWalksTheTable : Obligations.EncodePassWalksTheTable := by
  intro s bytes slots _ hp hl hwalk hinside hroom
  obtain ⟨t, ⟨hrun, hdata⟩, ht⟩ := runs_encodePass hp hl
    { phase_eq := rfl
      occ_wf := rfl
      occ_get := fun _ => rfl
      walk := hwalk
      inside := hinside
      room := fun y => by simpa [counterMax] using hroom y }
  exact ⟨t, hrun, ht.phase_eq, hdata, ht.x_eq, ht.tsize_eq, fun y => by simpa using ht.occ_get y, ht.cnt_eq,
    ht.ntot_eq⟩

/-- Settles O16: the cases of `EBEGIN`; an empty array reads 0 everywhere. -/
theorem ebeginOpensAnEncodePass : Obligations.EbeginOpensAnEncodePass := by
  intro s
  refine ⟨rfl, ?phase, ?large, ?opens⟩
  case phase => exact fun hc he => if_neg (by simp [Phase.mayEncode_iff, hc, he])
  case large => exact fun hp hl => (if_pos ((Phase.mayEncode_iff _).2 hp)).trans (if_pos hl)
  case opens =>
    exact fun hp hl =>
      ⟨(s.openEncode (tableSize s)).answer .ok (tableSize s), exec_ebegin_opens ((Phase.mayEncode_iff _).2 hp) hl,
        fun _ => rfl, rfl⟩

/-- Settles O26: the cases of `RDOCC`. -/
theorem rdoccReadsTheOccurrences : Obligations.RdoccReadsTheOccurrences := by
  intro s
  refine ⟨rfl, ?refused, ?empty, ?reads⟩
  case refused => exact fun hc he => if_neg (by simp [ReadClass.readable_e_iff, hc, he])
  case empty => exact fun hp hsop => (if_pos ((ReadClass.readable_e_iff _).2 hp)).trans (if_pos hsop)
  case reads => exact fun hp hsop => (if_pos ((ReadClass.readable_e_iff _).2 hp)).trans (if_neg hsop)

end

section
/-! SUPPORT. The registers by number, and `RD` of each of them (R38, R39, R226). -/

namespace Sys2Proof.Machine

/-- The number of a register (R38), the other way round than `Register.ofNumber`. -/
def Register.number : Register → Nat
  | .status => 0
  | .w => 1
  | .base => 2
  | .scale => 3
  | .ntot => 4
  | .tsize => 5
  | .x => 6
  | .errcode => 7
  | .errsym => 8
  | .erridx => 9
  | .sop => 10

theorem Register.ofNumber_of_toNat {r : Byte} {q : Register} (h : r.toNat = q.number) :
    Register.ofNumber r = some q := by
  rw [Register.ofNumber, h]
  cases q <;> rfl

section
variable {r : Byte} {q : Register} {s : State}

theorem execRd_of_toNat (hr : r.toNat = q.number) :
    execRd r s = if q.readClass.readable s.phase then reply .ok (registerValue q s) s else refusePhase s := by
  rw [execRd, Register.ofNumber_of_toNat hr]

theorem exec_rd_reads (hr : r.toNat = q.number) (hp : q.readClass.readable s.phase = true) :
    exec (.rd r) s = .next (s.answer .ok (registerValue q s)) :=
  (execRd_of_toNat hr).trans (if_pos hp)

theorem exec_rd_refused (hr : r.toNat = q.number) (hp : ¬ q.readClass.readable s.phase = true) :
    exec (.rd r) s = .next (s.answer .refusedPhase 0) :=
  (execRd_of_toNat hr).trans (if_neg hp)

theorem exec_rd_reserved (hr : 11 ≤ r.toNat) : exec (.rd r) s = .next (s.answer .refusedArg 0) := by
  change execRd r s = _
  rw [execRd, registerOf_reserved hr]
  rfl

end

end Sys2Proof.Machine
end

section
/-! The obligations of this family. -/

open Sys2Proof Sys2Proof.Machine

/-- Settles O9: `RESET` and the reset input clear the same state and differ in the ports alone; the frames of phase FAULT
and of phase IDLE say the rest. -/
theorem resetCommandRestoresEverything : Obligations.ResetCommandRestoresEverything := by
  intro s
  refine ⟨rfl, rfl, ?resetInput, ?others⟩
  case resetInput => exact ⟨(s.clear.setResp (responseAfterRst s)).drawn, rfl, rfl⟩
  case others =>
    exact fun i t hi h => ⟨fun hs => exec_keeps_fault hs hi h, fun hs => (exec_keeps_width hs hi h).2⟩

/-- Settles O10: `NOP` is the reply alone. -/
theorem nopRepliesOk : Obligations.NopRepliesOk := fun _ => ⟨rfl, rfl⟩

/-- Settles O11: the word, each register in the phases of its class and outside them, and the reserved numbers. -/
theorem rdReadsTheRegisters : Obligations.RdReadsTheRegisters := by
  intro r s
  refine ⟨wordB_toNat 0x02 false r, ?status, ?w, ?base, ?scale, ?ntot, ?ntotRefused, ?tsize, ?x, ?encoderRefused,
    ?errcode, ?errsym, ?erridx, ?sop, exec_rd_reserved⟩
  case status => exact fun hr => exec_rd_reads (q := .status) hr rfl
  case w => exact fun hr => exec_rd_reads (q := .w) hr rfl
  case base => exact fun hr => exec_rd_reads (q := .base) hr rfl
  case scale => exact fun hr => exec_rd_reads (q := .scale) hr rfl
  case ntot => exact fun hr hc hf => exec_rd_reads (q := .ntot) hr ((ReadClass.readable_h_iff _).2 ⟨hc, hf⟩)
  case ntotRefused =>
    refine fun hr hp => exec_rd_refused (q := .ntot) hr (fun hread => ?_)
    obtain ⟨hc, hf⟩ := (ReadClass.readable_h_iff _).1 hread
    exact hp.elim hc hf
  case tsize => exact fun hr hp => exec_rd_reads (q := .tsize) hr ((ReadClass.readable_e_iff _).2 hp)
  case x => exact fun hr hp => exec_rd_reads (q := .x) hr ((ReadClass.readable_e_iff _).2 hp)
  case encoderRefused =>
    intro hr hc he
    have hp : ¬ ReadClass.e.readable s.phase = true := mt (ReadClass.readable_e_iff _).1 (not_or_intro hc he)
    rcases hr with hr | hr
    · exact exec_rd_refused (q := .tsize) hr hp
    · exact exec_rd_refused (q := .x) hr hp
  case errcode => exact fun hr => exec_rd_reads (q := .errcode) hr rfl
  case errsym => exact fun hr => exec_rd_reads (q := .errsym) hr rfl
  case erridx => exact fun hr => exec_rd_reads (q := .erridx) hr rfl
  case sop => exact fun hr => exec_rd_reads (q := .sop) hr rfl

end

section
/-! SUPPORT. What a response tells of the state behind it: a refusal changed nothing (R248), a FAULT response stands for
one fault entry (R241, R245); and in phase FAULT every command but `RESET` only answers (R251). -/

namespace Sys2Proof.Machine

/-! ### Responses -/

/-- Of the effects of a command only the refusal for an operand answers a refusal, so a refused command changed nothing
and answered with data 0 (R248). -/
theorem exec_of_isRefusal {i : Instr} {s t : State} {r : Response} (h : exec i s = .next t) (hr : t.resp = some r)
    (href : r.status.isRefusal = true) : ∃ st, t = s.answer st 0 := by
  rcases exec_refusal_or_effect h with rfl | he
  · exact ⟨_, rfl⟩
  cases he with
  | refusesArg hi => exact ⟨_, rfl⟩
  | _ => cases hr; cases href

/-- Of the effects of a command only fault entry answers FAULT (R245). -/
theorem exec_of_fault_response {i : Instr} {s t : State} {d : Nat} (h : exec i s = .next t)
    (hd : t.resp = some ⟨.fault, d⟩) : ∃ f ∈ faultsListed i s.phase, ∃ y k, t = faulted s f y k := by
  rcases exec_refusal_or_effect h with rfl | he
  · cases hd
  cases he with
  | faults hf y k => exact ⟨_, hf, y, k, rfl⟩
  | _ => cases hd

/-- The fault of `SRCERR` reports no symbol and no index (R242). -/
theorem exec_srcerr_of_fault_response {s t : State} {d : Nat} (h : exec .srcerr s = .next t)
    (hd : t.resp = some ⟨.fault, d⟩) : t = faulted s .sourceReadError [] 0 := by
  rcases execSrcerr_cases s with ⟨-, he⟩ | ⟨-, he⟩ <;> cases he.symm.trans h
  · cases hd
  · rfl

/-- The faults of a completed symbol (R243, R244, R246), the only ones of a command other than `SRCERR`. -/
theorem code_of_mem_faultsListed {i : Instr} {p : Phase} {f : FaultKind} (hi : i ≠ .srcerr)
    (hf : f ∈ faultsListed i p) : f.code = 4 ∨ f.code = 5 ∨ f.code = 6 := by
  have hemit : f ∈ faultsListed .endStream p := by
    rcases instr_of_mem_faultsListed hf with rfl | rfl | ⟨b, rfl⟩
    · exact hf
    · exact absurd rfl hi
    · exact hf
  simp only [faultsListed] at hemit
  split at hemit
  · cases List.mem_singleton.1 hemit
    decide
  · simp only [List.mem_cons, List.not_mem_nil, or_false] at hemit
    rcases hemit with rfl | rfl | rfl <;> decide

/-! ### Phase FAULT -/

/-- The column FAULT of R40: what is listed there beside `RESET` only reads. -/
theorem onlyReads_of_listed_in_fault {i : Instr} (hi : i ≠ .reset) (h : .fault ∈ listedPhases i) :
    onlyReads i = true := by
  cases i with
  | nop | rd r => rfl
  | reset => exact absurd rfl hi
  | _ => simp [listedPhases] at h

/-- In phase FAULT a command other than `RESET` is refused by phase or only reads (R251). -/
theorem exec_in_fault {i : Instr} {s t : State} (hs : s.phase = .fault) (hi : i ≠ .reset) (h : exec i s = .next t) :
    ∃ st d, t = s.answer st d := by
  rcases exec_listedOrRefused i s with ⟨-, he⟩ | ⟨hp, -⟩
  · cases he.symm.trans h
    exact ⟨_, _, rfl⟩
  · exact exec_of_onlyReads (onlyReads_of_listed_in_fault hi (hs ▸ hp)) h

/-- The word of `RESET` is the only one that decodes to it (R94, R98). -/
theorem ne_reset_of_decode {w : CommandWord} {i : Instr} (hd : decode w = some i) (hw : w ≠ 0x01000000) :
    i ≠ .reset := by
  rintro rfl
  exact hw (encode_of_decode hd).symm

end Sys2Proof.Machine
end

section
/-! The obligations of this family. -/

open Sys2Proof Sys2Proof.Machine

/-- Settles O34: a word that decodes to no command is answered ILLEGAL and nothing else, and a command that is refused
only answers. -/
theorem refusalsChangeNothing : Obligations.RefusalsChangeNothing := by
  intro w s t r h hr href
  have hanswer : ∃ st, t = s.answer st 0 := by
    cases hd : decode w with
    | none =>
      cases (runWord_illegal hd s).symm.trans h
      exact ⟨_, rfl⟩
    | some i => exact exec_of_isRefusal ((runWord_of_decode hd s).symm.trans h) hr href
  obtain ⟨st, rfl⟩ := hanswer
  cases hr
  exact ⟨rfl, rfl⟩

/-- Settles O35: `SRCERR` raises code 1 with an empty report, every other command that faults raises 4, 5 or 6 for the
symbol it completed. -/
theorem faultEntryWritesTheReport : Obligations.FaultEntryWritesTheReport := by
  intro i s t d h hd
  by_cases hi : i = .srcerr
  · subst hi
    cases exec_srcerr_of_fault_response h hd
    cases hd
    exact ⟨.sourceReadError, [], 0, rfl, rfl, .inl rfl, fun _ => ⟨rfl, rfl⟩⟩
  · obtain ⟨f, hf, y, k, rfl⟩ := exec_of_fault_response h hd
    cases hd
    have hcode := code_of_mem_faultsListed hi hf
    exact ⟨f, y, k, rfl, rfl, .inr hcode, by omega⟩

/-- Settles O36: in phase FAULT a command other than `RESET` only answers, and of the other port events the reset input
alone writes the phase or the report. -/
theorem onlyResetLeavesFault : Obligations.OnlyResetLeavesFault := by
  refine ⟨?commands, ?steps⟩
  case commands =>
    intro i s t hs hi h
    obtain ⟨st, d, rfl⟩ := exec_in_fault hs hi h
    rfl
  case steps =>
    intro s t hs h hrst hreset
    rcases step_cases h with ⟨-, rfl⟩ | ⟨w, rest, i, hin, -, hd, he⟩ | ⟨w, rest, -, -, -, rfl⟩ | ⟨rest, -, rfl⟩ |
      ⟨es, rest, -, -, rfl⟩ | ⟨rest, hin, -⟩
    · exact ⟨hs, rfl, rfl, rfl⟩
    · have hw : w ≠ 0x01000000 := by
        rintro rfl
        exact hreset rest hin
      obtain ⟨st, d, rfl⟩ := exec_in_fault (s := s.setInputs rest) hs (ne_reset_of_decode hd hw) he
      exact ⟨hs, rfl, rfl, rfl⟩
    · exact ⟨hs, rfl, rfl, rfl⟩
    · exact ⟨hs, rfl, rfl, rfl⟩
    · exact ⟨hs, rfl, rfl, rfl⟩
    · exact absurd hin (hrst rest)

end

section
/-! SUPPORT. The step of the reset input, as one update of the reset state. -/

namespace Sys2Proof.Machine

/-- The reset input keeps the build parameters, the table and the later port events; of the response port it leaves what
`responseAfterRst` says, for which it draws one free value (R280, R284). -/
theorem step_rst {s : State} {rest : List PortEvent} (h : s.inputs = .rst :: rest) :
    step s = .next { State.resetFor s.build with
      tbl := s.tbl, inputs := rest, resp := responseAfterRst (s.setInputs rest), draws := s.draws + 1 } :=
  step_event h

end Sys2Proof.Machine
end

section
/-! The obligations of this family. -/

open Sys2Proof Sys2Proof.Machine

/-- Settles O8: the reset values are those of `State.resetFor`, whose empty arrays read 0 at every key; the reset input
is one update of that state, and leaves on the response port nothing or what was there. -/
theorem resetInputGivesTheResetState : Obligations.ResetInputGivesTheResetState := by
  refine ⟨?values, ?resetInput⟩
  case values =>
    exact fun b => ⟨State.resetFor b, rfl, rfl, rfl, rfl, rfl, rfl, rfl, Counters.get_nil, rfl, rfl, rfl,
      Counters.get_nil, rfl, rfl, rfl, rfl⟩
  case resetInput =>
    exact fun s rest h => ⟨_, _, responseAfterRst_cases (s.setInputs rest), step_rst h⟩

end
